-- ==== Sys2Proof/Word.lean ====
section
/-! DEFINITION. The word types of the SipHash digest core: bytes, state words, command words and
payloads. Bit 0 is the least significant bit, every value is unsigned, byte sequences are written
index 0 first (00_scope.md R8). The arithmetic of the core is `BitVec`'s `+` (addition modulo 2^64)
and `^^^` (XOR) on `Word`, as 00_scope.md R9 gives them. -/

namespace Sys2Proof

/-- A byte of a payload (20_memory.md R40), and the TLEN field (30_encoding.md R61). -/
abbrev Byte := BitVec 8

/-- A state word or RESULT: 64 bits, unsigned (00_scope.md R7, 10_state.md R22). -/
abbrev Word := BitVec 64

/-- A command word CMD: 32 bits (30_encoding.md R60). -/
abbrev CmdWord := BitVec 32

/-- The payload P[0..15] of one command (20_memory.md R40, 30_encoding.md R60). -/
abbrev Payload := Vector Byte 16

end Sys2Proof
end

