-- ==== Sys2Proof/Syntax.lean ====
section
/-! DEFINITION. The commands of the core as data: one constructor of `Instr` for each row of
spec/opcode_table.json (30_encoding.md R66). Round counts, rotation amounts and declared lengths are
numbers; WellFormed.lean says which of them have an encoding. -/

namespace Sys2Proof

/-- The four state words as names: V[0] to V[3], and the selector SEL (10_state.md R22,
30_encoding.md R62). -/
inductive VReg where
  | v0
  | v1
  | v2
  | v3
deriving DecidableEq, Repr

/-- The nine commands without their operands (30_encoding.md R66). -/
inductive Opcode where
  | init
  | absorb
  | absorbLast
  | compress
  | finalize
  | rotl
  | accelQuery
  | stateRead
  | stateWrite
deriving DecidableEq, Repr

/-- A command with its operands. A command whose row reads payload bytes carries the payload; the
others read none (20_memory.md R50). `plen` is the declared payload length where the row has that
field (30_encoding.md R64). -/
inductive Instr where
  /-- INIT: key in P[0..15] (40_init.md R101). -/
  | init (plen : Nat) (p : Payload)
  /-- ABSORB with round count `c` and block P[0..7] (42_absorb.md R131). -/
  | absorb (plen c : Nat) (p : Payload)
  /-- ABSORB_LAST with round count `c`, length byte `tlen` and the remainder P[0..plen-1]
  (42_absorb.md R134). -/
  | absorbLast (plen c : Nat) (tlen : Byte) (p : Payload)
  /-- COMPRESS with count `n` (41_sipround.md R114). -/
  | compress (n : Nat)
  /-- FINALIZE with round count `d` (43_finalize.md R151). -/
  | finalize (d : Nat)
  /-- ROTL by `amount` of the value in P[0..7] (44_rotate.md R161). -/
  | rotl (plen amount : Nat) (p : Payload)
  /-- ACCEL_QUERY (45_host.md R170). -/
  | accelQuery
  /-- STATE_READ of the word `sel` (45_host.md R171). -/
  | stateRead (sel : VReg)
  /-- STATE_WRITE of the value in P[0..7] to the word `sel` (45_host.md R172). -/
  | stateWrite (plen : Nat) (sel : VReg) (p : Payload)
deriving DecidableEq, Repr

/-- The command an instruction is. -/
def Instr.opcode : Instr → Opcode
  | .init _ _ => .init
  | .absorb _ _ _ => .absorb
  | .absorbLast _ _ _ _ => .absorbLast
  | .compress _ => .compress
  | .finalize _ => .finalize
  | .rotl _ _ _ => .rotl
  | .accelQuery => .accelQuery
  | .stateRead _ => .stateRead
  | .stateWrite _ _ _ => .stateWrite

/-- The payload an instruction carries, if its row reads one. -/
def Instr.payload? : Instr → Option Payload
  | .init _ p => some p
  | .absorb _ _ p => some p
  | .absorbLast _ _ _ p => some p
  | .compress _ => none
  | .finalize _ => none
  | .rotl _ _ p => some p
  | .accelQuery => none
  | .stateRead _ => none
  | .stateWrite _ _ p => some p

end Sys2Proof
end

