-- ==== Sys2Proof/WellFormed.lean ====
section
/-! DEFINITION. Which instructions have an encoding: a declared length must fit the 5-bit PLEN
field, a round count or rotation amount the 8-bit CNT field (30_encoding.md R61, R63, R64). A count
above 255 has no encoding (93_implementation_defined.md I15; log entry 7). The lengths and amounts a
command REFUSES (an 8-byte key, a rotation by 64) are well formed: they have encodings, and running
them raises the spec's error (30_encoding.md R64). -/

namespace Sys2Proof

/-- A declared length the 5-bit PLEN field can hold (30_encoding.md R64). -/
def plenFits (plen : Nat) : Bool := decide (plen < 32)

/-- A count the 8-bit CNT field can hold (30_encoding.md R63). -/
def cntFits (cnt : Nat) : Bool := decide (cnt < 256)

/-- The instruction has an encoding. -/
def Instr.wellFormed : Instr → Bool
  | .init plen _ => plenFits plen
  | .absorb plen c _ => plenFits plen && cntFits c
  | .absorbLast plen c _ _ => plenFits plen && cntFits c
  | .compress n => cntFits n
  | .finalize d => cntFits d
  | .rotl plen amount _ => plenFits plen && cntFits amount
  | .accelQuery => true
  | .stateRead _ => true
  | .stateWrite plen _ _ => plenFits plen

end Sys2Proof
end

