-- ==== Sys2Proof/Decode.lean ====
section
/-! DEFINITION. The decoder from a command word and payload to an instruction or a named rejection
(30_encoding.md R61 to R69), the encoder, the opcode table as data, and the numbering of a command's
bits that the host's table uses. Decoding is the part of the check of 60_exceptions.md R202 that
depends on the command word's shape alone (its steps 1 to 3); the checked fields of 30_encoding.md
R67 are left to the meanings. A rejection is no refusal of the machine: the step answers it with
IllegalCommand (30_encoding.md R68). -/

namespace Sys2Proof

/-! ## Fields of CMD (30_encoding.md R61, R62) -/

/-- OP = CMD[3:0]. -/
def opField (cmd : CmdWord) : Nat := (cmd.extractLsb' 0 4).toNat

/-- PLEN = CMD[8:4]. -/
def plenField (cmd : CmdWord) : Nat := (cmd.extractLsb' 4 5).toNat

/-- RSV = CMD[15:9]. -/
def rsvField (cmd : CmdWord) : Nat := (cmd.extractLsb' 9 7).toNat

/-- CNT = CMD[23:16]. -/
def cntField (cmd : CmdWord) : Nat := (cmd.extractLsb' 16 8).toNat

/-- TLEN = CMD[31:24]. -/
def tlenField (cmd : CmdWord) : Byte := cmd.extractLsb' 24 8

/-- The word with the given fields and RSV = 0 (the picture of 30_encoding.md R61). -/
def packCmd (tlen : Byte) (cnt plen op : Nat) : CmdWord :=
  tlen ++ BitVec.ofNat 8 cnt ++ 0#7 ++ BitVec.ofNat 5 plen ++ BitVec.ofNat 4 op

/-! ## Opcodes and selectors -/

/-- The opcode number of a command (30_encoding.md R66). -/
def Opcode.code : Opcode → Nat
  | .init => 0x1
  | .absorb => 0x2
  | .absorbLast => 0x3
  | .compress => 0x4
  | .finalize => 0x5
  | .rotl => 0x6
  | .accelQuery => 0x7
  | .stateRead => 0x8
  | .stateWrite => 0x9

/-- The command an OP value names; 0x0 and 0xA to 0xF name none (30_encoding.md R66). -/
def Opcode.ofCode : Nat → Option Opcode
  | 0x1 => some .init
  | 0x2 => some .absorb
  | 0x3 => some .absorbLast
  | 0x4 => some .compress
  | 0x5 => some .finalize
  | 0x6 => some .rotl
  | 0x7 => some .accelQuery
  | 0x8 => some .stateRead
  | 0x9 => some .stateWrite
  | _ => none

/-- The index of a state word, the selector's value (30_encoding.md R62). -/
def VReg.index : VReg → Nat
  | .v0 => 0
  | .v1 => 1
  | .v2 => 2
  | .v3 => 3

/-- The state word a CNT value selects: SEL = CNT[1:0], and CNT[7:2] must be 0
(30_encoding.md R63). -/
def VReg.ofCnt : Nat → Option VReg
  | 0 => some .v0
  | 1 => some .v1
  | 2 => some .v2
  | 3 => some .v3
  | _ => none

/-! ## The decoder -/

/-- Why a command word stands for no command (30_encoding.md R68). -/
inductive DecodeError where
  /-- OP is 0x0 or 0xA to 0xF (60_exceptions.md R202, step 1). -/
  | illegalOpcode
  /-- RSV is not 0 (step 2). -/
  | reservedBits
  /-- A field the command does not use is not 0 (step 3). -/
  | unusedField
deriving DecidableEq, Repr

/-- The instruction of a word whose OP names `op` and whose RSV is 0, where each field the row of
30_encoding.md R67 marks 'must 0' is 0. -/
def decodeOperands (op : Opcode) (cmd : CmdWord) (p : Payload) : Except DecodeError Instr :=
  let plen := plenField cmd
  let cnt := cntField cmd
  let tlen := tlenField cmd
  match op with
  | .init => if cnt = 0 ∧ tlen = 0 then .ok (.init plen p) else .error .unusedField
  | .absorb => if tlen = 0 then .ok (.absorb plen cnt p) else .error .unusedField
  | .absorbLast => .ok (.absorbLast plen cnt tlen p)
  | .compress => if plen = 0 ∧ tlen = 0 then .ok (.compress cnt) else .error .unusedField
  | .finalize => if plen = 0 ∧ tlen = 0 then .ok (.finalize cnt) else .error .unusedField
  | .rotl => if tlen = 0 then .ok (.rotl plen cnt p) else .error .unusedField
  | .accelQuery =>
    if plen = 0 ∧ cnt = 0 ∧ tlen = 0 then .ok .accelQuery else .error .unusedField
  | .stateRead =>
    match VReg.ofCnt cnt with
    | some sel => if plen = 0 ∧ tlen = 0 then .ok (.stateRead sel) else .error .unusedField
    | none => .error .unusedField
  | .stateWrite =>
    match VReg.ofCnt cnt with
    | some sel => if tlen = 0 then .ok (.stateWrite plen sel p) else .error .unusedField
    | none => .error .unusedField

/-- Decode a command: total, the same in every state of the core (30_encoding.md R69). -/
def decode (cmd : CmdWord) (p : Payload) : Except DecodeError Instr :=
  match Opcode.ofCode (opField cmd) with
  | none => .error .illegalOpcode
  | some op => if rsvField cmd = 0 then decodeOperands op cmd p else .error .reservedBits

/-! ## The encoder -/

/-- A payload of zero bytes, for the commands that read none (30_encoding.md R70: bytes not written
are 0x00). -/
def zeroPayload : Payload := Vector.replicate 16 0#8

/-- The command word and payload of an instruction (30_encoding.md R61, R66, R67). -/
def encode : Instr → CmdWord × Payload
  | .init plen p => (packCmd 0 0 plen 0x1, p)
  | .absorb plen c p => (packCmd 0 c plen 0x2, p)
  | .absorbLast plen c tlen p => (packCmd tlen c plen 0x3, p)
  | .compress n => (packCmd 0 n 0 0x4, zeroPayload)
  | .finalize d => (packCmd 0 d 0 0x5, zeroPayload)
  | .rotl plen amount p => (packCmd 0 amount plen 0x6, p)
  | .accelQuery => (packCmd 0 0 0 0x7, zeroPayload)
  | .stateRead sel => (packCmd 0 sel.index 0 0x8, zeroPayload)
  | .stateWrite plen sel p => (packCmd 0 sel.index plen 0x9, p)

/-! ## The opcode table (30_encoding.md R67) -/

/-- A row of the table: a word `w` selects the command exactly when `w &&& mask = pattern`. -/
structure OpcodeRow where
  opcode : Opcode
  pattern : CmdWord
  mask : CmdWord
deriving DecidableEq, Repr

/-- The match and mask columns of 30_encoding.md R67. -/
def opcodeTable : List OpcodeRow :=
  [ ⟨.init, 0x00000001#32, 0xFFFFFE0F#32⟩,
    ⟨.absorb, 0x00000002#32, 0xFF00FE0F#32⟩,
    ⟨.absorbLast, 0x00000003#32, 0x0000FE0F#32⟩,
    ⟨.compress, 0x00000004#32, 0xFF00FFFF#32⟩,
    ⟨.finalize, 0x00000005#32, 0xFF00FFFF#32⟩,
    ⟨.rotl, 0x00000006#32, 0xFF00FE0F#32⟩,
    ⟨.accelQuery, 0x00000007#32, 0xFFFFFFFF#32⟩,
    ⟨.stateRead, 0x00000008#32, 0xFFFCFFFF#32⟩,
    ⟨.stateWrite, 0x00000009#32, 0xFFFCFE0F#32⟩ ]

/-! ## A command as one number

The host numbers an instruction's bits from the least significant bit of its first word on. A command
is CMD and then the payload as the 128-bit port lays it out: byte i is bits [8i+7:8i] of the port
(70_reset_and_hazards.md R251), so it is bits [8i+39:8i+32] of the number. Log entry 6. -/

/-- The payload on the 128-bit port (70_reset_and_hazards.md R251). -/
def payloadOfPort (port : BitVec 128) : Payload :=
  Vector.ofFn fun i : Fin 16 => port.extractLsb' (8 * i.val) 8

/-- The command whose low `nbits` bits are those of `w` and whose other bits are 0. -/
def commandOfBits (nbits w : Nat) : CmdWord × Payload :=
  let bits := w % 2 ^ nbits
  (BitVec.ofNat 32 bits, payloadOfPort (BitVec.ofNat 128 (bits / 2 ^ 32)))

/-- What the decoder reads from a row of the opcode table. -/
def decodeTableWord (nbits w : Nat) : Option Instr :=
  match decode (commandOfBits nbits w).1 (commandOfBits nbits w).2 with
  | .ok i => some i
  | .error _ => none

end Sys2Proof
end

