-- ==== Sys2Proof/Config.lean ====
section
/-! DEFINITION. What the instance fixes and the spec leaves open. The spec has three open
parameters (00_scope.md R7): ACCEL_ACTIVE, which software can see and which stands here; LATENCY and
PLATFORM_BINDING, which no rule of the core depends on (70_reset_and_hazards.md R250, 20_memory.md
R41; log entry 9). -/

namespace Sys2Proof.Config

/-- ACCEL_ACTIVE of the instance that comes out of reset: OPEN (10_state.md R32), so it has no body
and no proof can see its value. Log entry 2. -/
opaque accelActive : Bool

end Sys2Proof.Config
end

