-- ==== Sys2Proof/Machine/State.lean ====
section
/-! DEFINITION. The state of one core instance (10_state.md R21), its configuration bit, the command
port, the reasons a step could stop, and the state after reset. -/

namespace Sys2Proof.Machine

/-- The error codes of 60_exceptions.md R201. The values 7 to 15 are never produced
(10_state.md R29), so they have no constructor. -/
inductive ErrCode where
  | ok
  | invalidKeyLength
  | invalidBlockLength
  | invalidRemainderLength
  | illegalCommand
  | invalidShift
  | stateNotInitialized
deriving DecidableEq, Repr

/-- A state value S = (v0, v1, v2, v3) (00_scope.md R11). -/
structure SipState where
  v0 : Word
  v1 : Word
  v2 : Word
  v3 : Word
deriving DecidableEq, Repr

/-- One response: STATUS, and RESULT when RES_VALID = 1 (10_state.md R38). -/
structure Response where
  status : BitVec 32
  result : Option Word
deriving DecidableEq, Repr

/-- What the host does to the core (10_state.md R20, 70_reset_and_hazards.md R242). -/
inductive HostInput where
  /-- Issue a command and let it complete (30_encoding.md R73). -/
  | command (cmd : CmdWord) (p : Payload)
  /-- Reset the core between two commands (70_reset_and_hazards.md R242). -/
  | reset
  /-- Issue a command and reset the core while it executes (70_reset_and_hazards.md R242). -/
  | resetDuring (cmd : CmdWord) (p : Payload)
deriving DecidableEq, Repr

/-- The state of the core and of its port. VALID and RES_VALID are stored once, with the words they
tell of: VALID[i] = 1 exactly when V[i] holds a value (10_state.md R25), RES_VALID = 1 exactly when
RESULT does (R31); Flags.lean reads them off. Log entry 1. -/
structure State where
  /-- V0, with VALID[0] (10_state.md R22, R24, R25). -/
  v0 : Option Word
  /-- V1, with VALID[1]. -/
  v1 : Option Word
  /-- V2, with VALID[2]. -/
  v2 : Option Word
  /-- V3, with VALID[3]. -/
  v3 : Option Word
  /-- ERR of the last command (10_state.md R29). -/
  err : ErrCode
  /-- STICKY: some command has failed since reset (10_state.md R30). -/
  sticky : Bool
  /-- RESULT, with RES_VALID (10_state.md R31). -/
  result : Option Word
  /-- ACCEL_ACTIVE of the instance (10_state.md R32); no step changes it. -/
  accelActive : Bool
  /-- The response on the port, held until the next command is accepted
  (10_state.md R38, 70_reset_and_hazards.md R251). -/
  response : Option Response
  /-- The host's inputs not yet delivered, in order of issue (10_state.md R27, R34). The MODEL's own
  field: it belongs to the host. Log entry 3. -/
  pending : List HostInput
deriving DecidableEq, Repr

/-- Reasons the machine stops with a fault: none. Every error of the core is a response, after which
it accepts the next command at once (60_exceptions.md R200, R204), and every command completes
(70_reset_and_hazards.md R250). The type is empty, so no step can fault; that is safe, since a step
always answers the spec's own next state. -/
inductive Fault where
deriving DecidableEq, Repr

/-- Reasons the model has no meaning to give. -/
inductive Refusal where
  /-- Raised by an arm of `exec` whose command has no meaning yet; no arm raises it. Safe: a refused
  command proves nothing. -/
  | notModelled (mnemonic : String)
deriving DecidableEq, Repr

/-- The core after reset (70_reset_and_hazards.md R240), on an instance whose ACCEL_ACTIVE is
whatever the platform fixed (R241, log entry 2), with nothing on the port (log entry 4) and no input
from the host yet (log entry 3). -/
def State.reset : State where
  v0 := none
  v1 := none
  v2 := none
  v3 := none
  err := .ok
  sticky := false
  result := none
  accelActive := Sys2Proof.Config.accelActive
  response := none
  pending := []

end Sys2Proof.Machine
end

