-- ==== Sys2Proof/Machine/Flags.lean ====
section
/-! DEFINITION. The flags and status fields the spec computes: ERR's bits, VALID, RES_VALID and the
STATUS word (10_state.md R24, R28 to R31). -/

namespace Sys2Proof.Machine

/-- The four bits of ERR (60_exceptions.md R201). -/
def ErrCode.code : ErrCode → BitVec 4
  | .ok => 0
  | .invalidKeyLength => 1
  | .invalidBlockLength => 2
  | .invalidRemainderLength => 3
  | .illegalCommand => 4
  | .invalidShift => 5
  | .stateNotInitialized => 6

/-- The errors that abort the hash computation by clearing VALID (60_exceptions.md R203). -/
def ErrCode.aborts : ErrCode → Bool
  | .ok => false
  | .invalidKeyLength => true
  | .invalidBlockLength => true
  | .invalidRemainderLength => true
  | .illegalCommand => false
  | .invalidShift => false
  | .stateNotInitialized => false

/-- VALID[3:0] (10_state.md R24, R25). -/
def State.valid (s : State) : BitVec 4 :=
  BitVec.ofBool s.v3.isSome ++ BitVec.ofBool s.v2.isSome ++ BitVec.ofBool s.v1.isSome
    ++ BitVec.ofBool s.v0.isSome

/-- RES_VALID (10_state.md R31). -/
def State.resValid (s : State) : Bool := s.result.isSome

/-- The STATUS word of 10_state.md R28, from its fields. -/
def statusWord (err : BitVec 4) (sticky : Bool) (valid : BitVec 4) (resValid accel : Bool) :
    BitVec 32 :=
  0#18 ++ BitVec.ofBool accel ++ BitVec.ofBool resValid ++ valid ++ 0#3 ++ BitVec.ofBool sticky
    ++ err

/-- STATUS (10_state.md R28). -/
def State.status (s : State) : BitVec 32 :=
  statusWord s.err.code s.sticky s.valid s.resValid s.accelActive

end Sys2Proof.Machine
end

