-- ==== Sys2Proof/Machine/Operands.lean ====
section
/-! DEFINITION. Operands from payload bytes: little-endian decode (20_memory.md R42 to R45) and the
padded final block (42_absorb.md R132). -/

namespace Sys2Proof.Machine

/-- LE64, the little-endian decode of eight bytes, byte 0 first (20_memory.md R42). -/
def le64 (b : Vector Byte 8) : Word :=
  BitVec.ofNat 64
    (b[0].toNat + b[1].toNat * 2 ^ 8 + b[2].toNat * 2 ^ 16 + b[3].toNat * 2 ^ 24
      + b[4].toNat * 2 ^ 32 + b[5].toNat * 2 ^ 40 + b[6].toNat * 2 ^ 48 + b[7].toNat * 2 ^ 56)

/-- P[0..7] (20_memory.md R50). -/
def payloadLow (p : Payload) : Vector Byte 8 :=
  #v[p[0], p[1], p[2], p[3], p[4], p[5], p[6], p[7]]

/-- P[8..15] (20_memory.md R50). -/
def payloadHigh (p : Payload) : Vector Byte 8 :=
  #v[p[8], p[9], p[10], p[11], p[12], p[13], p[14], p[15]]

/-- LE64(P[0..7]): k0 of INIT, the block of ABSORB, the value of ROTL and STATE_WRITE
(20_memory.md R43, R44, R45). -/
def lowWord (p : Payload) : Word := le64 (payloadLow p)

/-- LE64(P[8..15]): k1 of INIT (20_memory.md R43). -/
def highWord (p : Payload) : Word := le64 (payloadHigh p)

/-- Byte i of the final block for i in 0..6: P[i] inside the remainder, 0x00 beyond it
(42_absorb.md R132). -/
def remainderByte (p : Payload) (plen : Nat) (i : Fin 7) : Byte :=
  if i.val < plen then p[i.val] else 0x00#8

/-- The final block B[0..7]: the zero-padded remainder and then TLEN (42_absorb.md R132). -/
def finalBlock (p : Payload) (plen : Nat) (tlen : Byte) : Vector Byte 8 :=
  #v[remainderByte p plen 0, remainderByte p plen 1, remainderByte p plen 2,
    remainderByte p plen 3, remainderByte p plen 4, remainderByte p plen 5,
    remainderByte p plen 6, tlen]

/-- The word of the final block (42_absorb.md R132). -/
def finalWord (p : Payload) (plen : Nat) (tlen : Byte) : Word := le64 (finalBlock p plen tlen)

end Sys2Proof.Machine
end

