-- ==== Sys2Proof/Machine/Ops.lean ====
section
/-! DEFINITION. The named operations the commands share: the 64-bit rotation, SipRound and its
iteration, absorption and finalization as functions of a state value; reading and writing the state
words; and the two ways a command ends, `complete` (30_encoding.md R74) and `raise`
(60_exceptions.md R203), which is this core's taking of an error. There is no return from an error
(60_exceptions.md R207): the core accepts the next command at once (R204). -/

namespace Sys2Proof.Machine

/-! ## Functions of a state value -/

/-- The 64-bit left rotation for 0 < s < 64, on unbounded integers with the left shift masked to 64
bits (44_rotate.md R160). -/
def rotl64 (x : Word) (s : Nat) : Word :=
  BitVec.ofNat 64 (((x.toNat <<< s) &&& 0xffffffffffffffff) ||| (x.toNat >>> (64 - s)))

/-- SipRound: the eight steps of 41_sipround.md R110, in their order. -/
def sipRound (S : SipState) : SipState :=
  let v0 := S.v0
  let v1 := S.v1
  let v2 := S.v2
  let v3 := S.v3
  -- step 1
  let v0 := v0 + v1
  let v2 := v2 + v3
  -- step 2
  let v1 := rotl64 v1 13
  let v3 := rotl64 v3 16
  -- step 3
  let v1 := v1 ^^^ v0
  let v3 := v3 ^^^ v2
  -- step 4
  let v0 := rotl64 v0 32
  -- step 5
  let v2 := v2 + v1
  let v0 := v0 + v3
  -- step 6
  let v1 := rotl64 v1 17
  let v3 := rotl64 v3 21
  -- step 7
  let v1 := v1 ^^^ v2
  let v3 := v3 ^^^ v0
  -- step 8
  let v2 := rotl64 v2 32
  ⟨v0, v1, v2, v3⟩

/-- Compress(S, n): n SipRounds (41_sipround.md R113). There is one SipRound, whatever ACCEL_ACTIVE
is (R115). -/
def compress (S : SipState) : Nat → SipState
  | 0 => S
  | n + 1 => sipRound (compress S n)

/-- Absorb(S, m, c) (42_absorb.md R130). -/
def absorb (S : SipState) (m : Word) (c : Nat) : SipState :=
  let T := compress { S with v3 := S.v3 ^^^ m } c
  { T with v0 := T.v0 ^^^ m }

/-- Finalize(S, d): the digest, on a working copy of the state (43_finalize.md R150,
10_state.md R36). -/
def finalize (S : SipState) (d : Nat) : Word :=
  let W := compress { S with v2 := S.v2 ^^^ 0x00000000000000ff#64 } d
  ((W.v0 ^^^ W.v1) ^^^ W.v2) ^^^ W.v3

/-! ## The state words -/

/-- Read V[r], if it holds a value (00_scope.md R9, 10_state.md R25). -/
def State.readV (s : State) : VReg → Option Word
  | .v0 => s.v0
  | .v1 => s.v1
  | .v2 => s.v2
  | .v3 => s.v3

/-- V[r] <- x and VALID[r] <- 1 (45_host.md R172). -/
def State.writeV (s : State) (r : VReg) (x : Word) : State :=
  match r with
  | .v0 => { s with v0 := some x }
  | .v1 => { s with v1 := some x }
  | .v2 => { s with v2 := some x }
  | .v3 => { s with v3 := some x }

/-- The state value (V[0], V[1], V[2], V[3]), if VALID = 1111 (10_state.md R26). -/
def State.words (s : State) : Option SipState :=
  match s.v0, s.v1, s.v2, s.v3 with
  | some a, some b, some c, some d => some ⟨a, b, c, d⟩
  | _, _, _, _ => none

/-- (V[0], V[1], V[2], V[3]) <- S and VALID <- 1111 (40_init.md R101, 41_sipround.md R114). -/
def State.loadWords (s : State) (S : SipState) : State :=
  { s with v0 := some S.v0, v1 := some S.v1, v2 := some S.v2, v3 := some S.v3 }

/-- VALID <- 0000: an abort's loss of the four words (60_exceptions.md R203). -/
def State.dropWords (s : State) : State :=
  { s with v0 := none, v1 := none, v2 := none, v3 := none }

/-! ## Completion, error and reset -/

/-- The response of the state after a command: STATUS, and RESULT if it holds a value
(10_state.md R38). -/
def State.currentResponse (s : State) : Response := ⟨s.status, s.result⟩

/-- Put the response on the port (30_encoding.md R73, last line). -/
def State.respond (s : State) : State := { s with response := some s.currentResponse }

/-- Success completion with result `r`, and the response (30_encoding.md R74, R73). STICKY stays. -/
def complete (r : Option Word) (s : State) : State :=
  ({ s with err := .ok, result := r } : State).respond

/-- Take the error `e` (60_exceptions.md R203): an abort drops the words, every error writes ERR,
STICKY and RES_VALID, and the core responds. No state word is written and nothing else changes. -/
def raise (e : ErrCode) (s : State) : State :=
  let s := if e.aborts then s.dropWords else s
  ({ s with err := e, sticky := true, result := none } : State).respond

/-- Run `k` on the state value, or raise StateNotInitialized when VALID is not 1111
(60_exceptions.md R202, step 6). -/
def withWords (s : State) (k : SipState → State) : State :=
  match s.words with
  | some S => k S
  | none => raise .stateNotInitialized s

/-- Reset the core (70_reset_and_hazards.md R240). ACCEL_ACTIVE stays (R241), no response is
delivered (R242), and the host's further inputs are the host's (log entry 11). -/
def State.resetCore (s : State) : State :=
  { State.reset with accelActive := s.accelActive, pending := s.pending }

end Sys2Proof.Machine
end

