-- ==== Sys2Proof/Machine/Absorb.lean ====
section
/-! DEFINITION. ABSORB and ABSORB_LAST (42_absorb.md). -/

namespace Sys2Proof.Machine

/-- ABSORB (42_absorb.md R131). -/
def execAbsorb (plen c : Nat) (p : Payload) (s : State) : Host.Outcome State Fault Refusal :=
  .next <|
    if plen = 8 then
      withWords s fun S => complete none (s.loadWords (absorb S (lowWord p) c))
    else raise .invalidBlockLength s

/-- ABSORB_LAST (42_absorb.md R134). TLEN is not checked against PLEN (R135). -/
def execAbsorbLast (plen c : Nat) (tlen : Byte) (p : Payload) (s : State) :
    Host.Outcome State Fault Refusal :=
  .next <|
    if plen ≤ 7 then
      withWords s fun S => complete none (s.loadWords (absorb S (finalWord p plen tlen) c))
    else raise .invalidRemainderLength s

end Sys2Proof.Machine
end

