-- ==== Sys2Proof/Machine/Finalizer.lean ====
section
/-! DEFINITION. FINALIZE (43_finalize.md). -/

namespace Sys2Proof.Machine

/-- FINALIZE (43_finalize.md R151): the digest in RESULT, V and VALID unchanged. -/
def execFinalize (d : Nat) (s : State) : Host.Outcome State Fault Refusal :=
  .next <| withWords s fun S => complete (some (finalize S d)) s

end Sys2Proof.Machine
end

