-- ==== Sys2Proof/Machine/HostCommands.lean ====
section
/-! DEFINITION. ACCEL_QUERY, STATE_READ and STATE_WRITE (45_host.md). -/

namespace Sys2Proof.Machine

/-- ACCEL_QUERY (45_host.md R170). -/
def execAccelQuery (s : State) : Host.Outcome State Fault Refusal :=
  .next (complete (some (if s.accelActive then 1#64 else 0#64)) s)

/-- STATE_READ (45_host.md R171): only the selected word's VALID bit is needed. -/
def execStateRead (sel : VReg) (s : State) : Host.Outcome State Fault Refusal :=
  .next <|
    match s.readV sel with
    | some x => complete (some x) s
    | none => raise .stateNotInitialized s

/-- STATE_WRITE (45_host.md R172). -/
def execStateWrite (plen : Nat) (sel : VReg) (p : Payload) (s : State) :
    Host.Outcome State Fault Refusal :=
  .next <|
    if plen = 8 then complete none (s.writeV sel (lowWord p)) else raise .illegalCommand s

end Sys2Proof.Machine
end

