-- ==== Sys2Proof/Machine/Init.lean ====
section
/-! DEFINITION. INIT, the State Initializer (40_init.md). -/

namespace Sys2Proof.Machine

/-- C0, "somepseu" (40_init.md R100). -/
def initC0 : Word := 0x736f6d6570736575#64

/-- C1, "dorandom" (40_init.md R100). -/
def initC1 : Word := 0x646f72616e646f6d#64

/-- C2, "lygenera" (40_init.md R100). -/
def initC2 : Word := 0x6c7967656e657261#64

/-- C3, "tedbytes" (40_init.md R100). -/
def initC3 : Word := 0x7465646279746573#64

/-- The state of a key k0, k1 (40_init.md R101). -/
def initWords (k0 k1 : Word) : SipState :=
  ⟨initC0 ^^^ k0, initC1 ^^^ k1, initC2 ^^^ k0, initC3 ^^^ k1⟩

/-- INIT (40_init.md R101): it reads neither V nor VALID. -/
def execInit (plen : Nat) (p : Payload) (s : State) : Host.Outcome State Fault Refusal :=
  .next <|
    if plen = 16 then complete none (s.loadWords (initWords (lowWord p) (highWord p)))
    else raise .invalidKeyLength s

end Sys2Proof.Machine
end

