-- ==== Sys2Proof/Machine/Rotate.lean ====
section
/-! DEFINITION. ROTL (44_rotate.md). -/

namespace Sys2Proof.Machine

/-- ROTL (44_rotate.md R161): the length is checked before the amount (60_exceptions.md R202). -/
def execRotl (plen amount : Nat) (p : Payload) (s : State) : Host.Outcome State Fault Refusal :=
  .next <|
    if plen ≠ 8 then raise .illegalCommand s
    else if amount = 0 ∨ 64 ≤ amount then raise .invalidShift s
    else complete (some (rotl64 (lowWord p) amount)) s

end Sys2Proof.Machine
end

