-- ==== Sys2Proof/Machine/Round.lean ====
section
/-! DEFINITION. COMPRESS (41_sipround.md). -/

namespace Sys2Proof.Machine

/-- COMPRESS (41_sipround.md R114): a count of 0 keeps the words but still needs VALID = 1111. -/
def execCompress (n : Nat) (s : State) : Host.Outcome State Fault Refusal :=
  .next <| withWords s fun S => complete none (s.loadWords (compress S n))

end Sys2Proof.Machine
end

