-- ==== Sys2Proof/Machine/Dispatch.lean ====
section
/-! DEFINITION. The dispatch of an instruction to its meaning: the case of 30_encoding.md R73. -/

namespace Sys2Proof.Machine

def exec (i : Instr) (s : State) : Host.Outcome State Fault Refusal :=
  match i with
  | .init plen p => Sys2Proof.Machine.execInit plen p s
  | .absorb plen c p => Sys2Proof.Machine.execAbsorb plen c p s
  | .absorbLast plen c tlen p => Sys2Proof.Machine.execAbsorbLast plen c tlen p s
  | .compress n => Sys2Proof.Machine.execCompress n s
  | .finalize d => Sys2Proof.Machine.execFinalize d s
  | .rotl plen amount p => Sys2Proof.Machine.execRotl plen amount p s
  | .accelQuery => Sys2Proof.Machine.execAccelQuery s
  | .stateRead sel => Sys2Proof.Machine.execStateRead sel s
  | .stateWrite plen sel p => Sys2Proof.Machine.execStateWrite plen sel p s

end Sys2Proof.Machine
end

