-- ==== Sys2Proof/Machine/Input.lean ====
section
/-! DEFINITION. What one input of the host does: a command is decoded and run, or answered with
IllegalCommand (30_encoding.md R68, R73); a reset, between commands or inside one, replaces the state
by the reset state (70_reset_and_hazards.md R242). -/

namespace Sys2Proof.Machine

/-- One command (30_encoding.md R73). -/
def runCommand (cmd : CmdWord) (p : Payload) (s : State) : Host.Outcome State Fault Refusal :=
  match decode cmd p with
  | .ok i => exec i s
  | .error _ => .next (raise .illegalCommand s)

/-- One input of the host. -/
def runInput (input : HostInput) (s : State) : Host.Outcome State Fault Refusal :=
  match input with
  | .command cmd p => runCommand cmd p s
  | .reset => .next s.resetCore
  | .resetDuring _ _ => .next s.resetCore

end Sys2Proof.Machine
end

