-- ==== Sys2Proof/Machine/Step.lean ====
section
/-! DEFINITION. One step: the core takes the host's next input, if there is one; with none, it holds
its state and waits (60_exceptions.md R215; log entry 5). -/

namespace Sys2Proof.Machine

/-- One step of the core. The input is taken off the host's list, so it is not retained
(10_state.md R34). -/
def step (s : State) : Host.Outcome State Fault Refusal :=
  match s.pending with
  | [] => .next s
  | input :: rest => runInput input { s with pending := rest }

/-- The host issues the command with the given bits next (log entries 3 and 6). -/
def State.withFetchWord (s : State) (nbits w : Nat) : State :=
  { s with
    pending := .command (commandOfBits nbits w).1 (commandOfBits nbits w).2 :: s.pending }

end Sys2Proof.Machine
end

