-- ==== Sys2Proof/Machine/Check.lean ====
section
/-! DEFINITION. The check of 60_exceptions.md R202 as one ordered list, written from its pseudocode.
The step does not call it: the decoder makes its steps 1 to 3 and each meaning its own steps 4 to 6.
An obligation says that the two agree on every command in every state (log entry 12). -/

namespace Sys2Proof.Machine

/-- VALID[SEL] for SEL = CMD[17:16] (60_exceptions.md R202). -/
def validSelected (valid : BitVec 4) (cmd : CmdWord) : Bool :=
  valid.getLsbD (cmd.extractLsb' 16 2).toNat

/-- The error of the first check that fails, in the order of the list; OK when none does. -/
def firstError : List (Bool × ErrCode) → ErrCode
  | [] => .ok
  | (fails, e) :: later => if fails then e else firstError later

/-- `check(cfg, s, CMD)` (60_exceptions.md R202): each line is one `if ... return` of its pseudocode.
It reads CMD and VALID only. -/
def check (valid : BitVec 4) (cmd : CmdWord) : ErrCode :=
  let op := opField cmd
  let plen := plenField cmd
  let cnt := cntField cmd
  firstError
    [ -- 1. opcode
      (decide (op = 0x0 ∨ op ≥ 0xA), .illegalCommand),
      -- 2. reserved bits
      (decide (rsvField cmd ≠ 0), .illegalCommand),
      -- 3. unused fields
      (decide (tlenField cmd ≠ 0 ∧ op ≠ 0x3), .illegalCommand),
      (decide ((op = 0x1 ∨ op = 0x7) ∧ cnt ≠ 0), .illegalCommand),
      (decide ((op = 0x8 ∨ op = 0x9) ∧ cmd.extractLsb' 18 6 ≠ 0#6), .illegalCommand),
      (decide ((op = 0x4 ∨ op = 0x5 ∨ op = 0x7 ∨ op = 0x8) ∧ plen ≠ 0), .illegalCommand),
      -- 4. operand lengths
      (decide (op = 0x1 ∧ plen ≠ 16), .invalidKeyLength),
      (decide (op = 0x2 ∧ plen ≠ 8), .invalidBlockLength),
      (decide (op = 0x3 ∧ plen > 7), .invalidRemainderLength),
      (decide ((op = 0x6 ∨ op = 0x9) ∧ plen ≠ 8), .illegalCommand),
      -- 5. operand range
      (decide (op = 0x6 ∧ (cnt = 0 ∨ cnt ≥ 64)), .invalidShift),
      -- 6. state
      (decide ((op = 0x2 ∨ op = 0x3 ∨ op = 0x4 ∨ op = 0x5) ∧ valid ≠ 0b1111#4),
        .stateNotInitialized),
      (decide (op = 0x8 ∧ validSelected valid cmd = false), .stateNotInitialized) ]

end Sys2Proof.Machine
end

