-- ==== Sys2Proof/Machine/Assembler.lean ====
section
/-! DEFINITION. The assembler of 30_encoding.md R70 and R71, from a line of text to commands: a
lexer, a parser to `AsmStmt`, the expansion of the pseudo-instructions, and the encoding of each
statement. It is the host's side, no part of a step. What R70 leaves to a reader of text (blanks,
both cases of a hexadecimal digit, lists shorter than PLEN) is log entry 10. -/

namespace Sys2Proof.Machine

/-- One command as the host issues it: CMD and P (30_encoding.md R60). -/
abbrev Command := CmdWord × Payload

/-! ## Statements and their encodings -/

/-- One line of assembly (30_encoding.md R70), pseudo-instructions among them (R71). -/
inductive AsmStmt where
  | init (key : List Byte)
  | absorb (c : Nat) (block : List Byte)
  | absorbLast (c tlen : Nat) (rem : List Byte)
  | compress (n : Nat)
  | finalize (d : Nat)
  | rotl (s : Nat) (value : Word)
  | accelQuery
  | stateRead (sel : Nat)
  | stateWrite (sel : Nat) (value : Word)
  /-- `.cmd`: a raw command word and payload bytes. -/
  | raw (cmd : CmdWord) (bytes : List Byte)
  /-- The pseudo-instruction `sipround` (30_encoding.md R71). -/
  | sipround
  /-- The pseudo-instruction `hash` (30_encoding.md R71). -/
  | hash (c d : Nat) (key msg : List Byte)
deriving DecidableEq, Repr

/-- The payload that starts with the given bytes; bytes not written are 0x00 (30_encoding.md R70). -/
def padPayload (bytes : List Byte) : Payload := Vector.ofFn fun i : Fin 16 => bytes.getD i.val 0x00#8

/-- The little-endian bytes of a 64-bit value, byte 0 first (30_encoding.md R70, 20_memory.md R42). -/
def valueBytes (x : Word) : List Byte := (List.range 8).map fun i => x.extractLsb' (8 * i) 8

/-- The command of one statement that is no pseudo-instruction, with the fields of the table of
30_encoding.md R70. The assembler refuses a count or selector outside its range and a byte list
longer than the command allows. -/
def assembleCore : AsmStmt → Option Command
  | .init key => if key.length ≤ 16 then some (packCmd 0 0 16 1, padPayload key) else none
  | .absorb c block =>
    if c ≤ 255 ∧ block.length ≤ 8 then some (packCmd 0 c 8 2, padPayload block) else none
  | .absorbLast c tlen rem =>
    if c ≤ 255 ∧ tlen ≤ 255 ∧ rem.length ≤ 7 then
      some (packCmd (BitVec.ofNat 8 tlen) c rem.length 3, padPayload rem)
    else none
  | .compress n => if n ≤ 255 then some (packCmd 0 n 0 4, zeroPayload) else none
  | .finalize d => if d ≤ 255 then some (packCmd 0 d 0 5, zeroPayload) else none
  | .rotl s value =>
    if 1 ≤ s ∧ s ≤ 63 then some (packCmd 0 s 8 6, padPayload (valueBytes value)) else none
  | .accelQuery => some (packCmd 0 0 0 7, zeroPayload)
  | .stateRead sel => if sel ≤ 3 then some (packCmd 0 sel 0 8, zeroPayload) else none
  | .stateWrite sel value =>
    if sel ≤ 3 then some (packCmd 0 sel 8 9, padPayload (valueBytes value)) else none
  | .raw cmd bytes => if bytes.length ≤ 16 then some (cmd, padPayload bytes) else none
  | .sipround => none
  | .hash _ _ _ _ => none

/-- The full 8-byte blocks msg[8j .. 8j+7] of a message, j = 0 .. floor(L/8)-1
(30_encoding.md R71, 42_absorb.md R136). -/
def fullBlocks (msg : List Byte) : List (List Byte) :=
  (List.range (msg.length / 8)).map fun j => (msg.drop (8 * j)).take 8

/-- The remainder msg[8*floor(L/8) .. L-1] of a message (30_encoding.md R71, 42_absorb.md R136). -/
def messageRemainder (msg : List Byte) : List Byte := msg.drop (8 * (msg.length / 8))

/-- The statements of `hash` (30_encoding.md R71): INIT, one ABSORB for each full block, one
ABSORB_LAST with the remainder and L mod 256, FINALIZE. -/
def hashStatements (c d : Nat) (key msg : List Byte) : List AsmStmt :=
  [.init key] ++ (fullBlocks msg).map (AsmStmt.absorb c)
    ++ [.absorbLast c (msg.length % 256) (messageRemainder msg), .finalize d]

/-- The expansion of a statement (30_encoding.md R71); `hash` takes a key of 16 bytes. -/
def expand : AsmStmt → Option (List AsmStmt)
  | .sipround => some [.compress 1]
  | .hash c d key msg => if key.length = 16 then some (hashStatements c d key msg) else none
  | stmt => some [stmt]

/-- The commands of a statement. -/
def assemble (stmt : AsmStmt) : Option (List Command) :=
  (expand stmt).bind fun stmts => stmts.mapM assembleCore

/-! ## Text -/

/-- The tokens of a line. -/
inductive Token where
  /-- A run of characters that are no blank, comma, equals sign or bracket. -/
  | word (cs : List Char)
  | equals
  | comma
  | open
  | close
deriving DecidableEq, Repr

/-- A token of the characters gathered so far, newest first, if there are any. -/
def flushWord (gathered : List Char) (rest : List Token) : List Token :=
  if gathered = [] then rest else .word gathered.reverse :: rest

/-- Cut a line into tokens; `gathered` is the word being read, newest character first. -/
def lexFrom (gathered : List Char) : List Char → List Token
  | [] => flushWord gathered []
  | ch :: cs =>
    if ch = ' ' ∨ ch = '\t' then flushWord gathered (lexFrom [] cs)
    else if ch = '=' then flushWord gathered (.equals :: lexFrom [] cs)
    else if ch = ',' then flushWord gathered (.comma :: lexFrom [] cs)
    else if ch = '[' then flushWord gathered (.open :: lexFrom [] cs)
    else if ch = ']' then flushWord gathered (.close :: lexFrom [] cs)
    else lexFrom (ch :: gathered) cs

/-- The value of a decimal digit. -/
def decDigit (ch : Char) : Option Nat :=
  if '0' ≤ ch ∧ ch ≤ '9' then some (ch.toNat - '0'.toNat) else none

/-- The value of a hexadecimal digit, in either case. -/
def hexDigit (ch : Char) : Option Nat :=
  if '0' ≤ ch ∧ ch ≤ '9' then some (ch.toNat - '0'.toNat)
  else if 'a' ≤ ch ∧ ch ≤ 'f' then some (ch.toNat - 'a'.toNat + 10)
  else if 'A' ≤ ch ∧ ch ≤ 'F' then some (ch.toNat - 'A'.toNat + 10)
  else none

/-- The number the digits write in the given base, after `value` to their left. -/
def digitsFrom (base : Nat) (digit : Char → Option Nat) (value : Nat) : List Char → Option Nat
  | [] => some value
  | ch :: cs =>
    match digit ch with
    | some k => digitsFrom base digit (value * base + k) cs
    | none => none

/-- A decimal number of at least one digit. -/
def decNumber (cs : List Char) : Option Nat :=
  if cs = [] then none else digitsFrom 10 decDigit 0 cs

/-- A payload byte: exactly two hexadecimal digits (30_encoding.md R70). -/
def hexByte (cs : List Char) : Option Byte :=
  if cs.length = 2 then (digitsFrom 16 hexDigit 0 cs).map (BitVec.ofNat 8) else none

/-- `0x` and exactly `n` hexadecimal digits (30_encoding.md R70). -/
def hexNumber (n : Nat) : List Char → Option Nat
  | '0' :: 'x' :: cs => if cs.length = n then digitsFrom 16 hexDigit 0 cs else none
  | _ => none

/-- The bytes up to the closing bracket, and the tokens after it. -/
def bytesFrom : List Token → Option (List Byte × List Token)
  | .close :: rest => some ([], rest)
  | .word cs :: rest =>
    match hexByte cs, bytesFrom rest with
    | some b, some (bs, after) => some (b :: bs, after)
    | _, _ => none
  | _ => none

/-- A bracketed byte list at the end of a line. -/
def lastBytes : List Token → Option (List Byte)
  | .open :: rest =>
    match bytesFrom rest with
    | some (bs, []) => some bs
    | _ => none
  | _ => none

/-- A comma and then a bracketed byte list at the end of a line. -/
def commaBytes : List Token → Option (List Byte)
  | .comma :: rest => lastBytes rest
  | _ => none

/-- A comma and then a 64-bit value at the end of a line. -/
def commaValue : List Token → Option Word
  | [.comma, .word cs] => (hexNumber 16 cs).map (BitVec.ofNat 64)
  | _ => none

/-- `name=<number>` at the start of the tokens, and the tokens after it. -/
def namedNumber (name : List Char) : List Token → Option (Nat × List Token)
  | .word w :: .equals :: .word v :: rest =>
    if w = name then (decNumber v).map fun k => (k, rest) else none
  | _ => none

/-- `, name=<number>` at the start of the tokens, and the tokens after it. -/
def commaNumber (name : List Char) : List Token → Option (Nat × List Token)
  | .comma :: rest => namedNumber name rest
  | _ => none

/-- `, name=[bytes]` at the start of the tokens, and the tokens after it. -/
def commaNamedBytes (name : List Char) : List Token → Option (List Byte × List Token)
  | .comma :: .word w :: .equals :: .open :: rest => if w = name then bytesFrom rest else none
  | _ => none

/-- The operands of `name=<number>` alone on the line. -/
def onlyNumber (name : List Char) (make : Nat → AsmStmt) (rest : List Token) : Option AsmStmt :=
  match namedNumber name rest with
  | some (k, []) => some (make k)
  | _ => none

/-- The operands of `name=<number>, 0x<16 hex digits>`. -/
def numberValue (name : List Char) (make : Nat → Word → AsmStmt) (rest : List Token) :
    Option AsmStmt :=
  (namedNumber name rest).bind fun r => (commaValue r.2).map (make r.1)

/-- The operands of `absorb_last`. -/
def absorbLastOperands (rest : List Token) : Option AsmStmt :=
  (namedNumber ['c'] rest).bind fun r =>
    (commaNumber "tlen".toList r.2).bind fun q =>
      (commaBytes q.2).map (AsmStmt.absorbLast r.1 q.1)

/-- The operands of `hash`. -/
def hashOperands (rest : List Token) : Option AsmStmt :=
  (namedNumber ['c'] rest).bind fun r =>
    (commaNumber ['d'] r.2).bind fun q =>
      (commaNamedBytes "key".toList q.2).bind fun k =>
        (commaNamedBytes "msg".toList k.2).bind fun m =>
          if m.2 = [] then some (.hash r.1 q.1 k.1 m.1) else none

/-- The operands of `.cmd`: a raw word, then payload bytes or nothing. -/
def rawOperands : List Token → Option AsmStmt
  | .word cs :: rest =>
    (hexNumber 8 cs).bind fun w =>
      if rest = [] then some (.raw (BitVec.ofNat 32 w) [])
      else (commaBytes rest).map (AsmStmt.raw (BitVec.ofNat 32 w))
  | _ => none

/-- A statement with no operands. -/
def noOperands (stmt : AsmStmt) (rest : List Token) : Option AsmStmt :=
  if rest = [] then some stmt else none

/-- The parser of each mnemonic's operands, by the mnemonic in lower case (30_encoding.md R70, R71). -/
def operandParsers : List (List Char × (List Token → Option AsmStmt)) :=
  [ ("init".toList, fun rest => (lastBytes rest).map AsmStmt.init),
    ("absorb".toList, fun rest =>
      (namedNumber ['c'] rest).bind fun r => (commaBytes r.2).map (AsmStmt.absorb r.1)),
    ("absorb_last".toList, absorbLastOperands),
    ("compress".toList, onlyNumber ['n'] AsmStmt.compress),
    ("finalize".toList, onlyNumber ['d'] AsmStmt.finalize),
    ("rotl".toList, numberValue ['s'] AsmStmt.rotl),
    ("accel_query".toList, noOperands .accelQuery),
    ("state_read".toList, onlyNumber "sel".toList AsmStmt.stateRead),
    ("state_write".toList, numberValue "sel".toList AsmStmt.stateWrite),
    (".cmd".toList, rawOperands),
    ("sipround".toList, noOperands .sipround),
    ("hash".toList, hashOperands) ]

/-- The word is the mnemonic in lower case or in upper case (30_encoding.md R70). -/
def spells (word mnemonic : List Char) : Bool :=
  word = mnemonic || word = mnemonic.map Char.toUpper

/-- Parse the tokens of one line. -/
def parseTokens : List Token → Option AsmStmt
  | .word m :: rest =>
    (operandParsers.find? fun entry => spells m entry.1).bind fun entry => entry.2 rest
  | _ => none

/-- Assemble one line of text (30_encoding.md R70, R71). -/
def assembleLine (line : String) : Option (List Command) :=
  (parseTokens (lexFrom [] line.toList)).bind assemble

/-- The host's inputs for a list of commands, in order of issue (10_state.md R27). -/
def issue (commands : List Command) : List HostInput :=
  commands.map fun command => .command command.1 command.2

end Sys2Proof.Machine
end

