-- ==== Sys2Proof/Machine/HostProtocol.lean ====
section
/-! DEFINITION. The host protocol of 42_absorb.md R136 as a list of commands, and the digest
SipHash-c-d(key, msg) it computes, as a function of the key, the message and the round counts. Neither
is part of a step: the protocol is the host's duty (R136, R137). -/

namespace Sys2Proof.Machine

/-- The commands of R136 for a 16-byte key: INIT, the ABSORBs, the ABSORB_LAST, the FINALIZE. -/
def hashCommands (c d : Nat) (key : Payload) (msg : List Byte) : List Command :=
  [(packCmd 0 0 16 1, key)] ++ (fullBlocks msg).map (fun block => (packCmd 0 c 8 2, padPayload block))
    ++ [(packCmd (BitVec.ofNat 8 (msg.length % 256)) c (msg.length % 8) 3,
          padPayload (messageRemainder msg)),
        (packCmd 0 d 0 5, zeroPayload)]

/-- The state after the full blocks of a message, absorbed in order (42_absorb.md R136). -/
def absorbBlocks (S : SipState) (c : Nat) (blocks : List (List Byte)) : SipState :=
  blocks.foldl (fun T block => absorb T (lowWord (padPayload block)) c) S

/-- SipHash-c-d(key, msg) (00_scope.md R1 to R3, 42_absorb.md R136). -/
def sipHash (c d : Nat) (key : Payload) (msg : List Byte) : Word :=
  let keyed := initWords (lowWord key) (highWord key)
  let absorbed := absorbBlocks keyed c (fullBlocks msg)
  let padded :=
    absorb absorbed
      (finalWord (padPayload (messageRemainder msg)) (msg.length % 8) (BitVec.ofNat 8 msg.length)) c
  finalize padded d

end Sys2Proof.Machine
end

