-- ==== Sys2Proof/Safety.lean ====
section
/-! DEFINITION. What claims call a state the core can be in, and an error-free run. -/

namespace Sys2Proof

open Sys2Proof.Machine

/-- The relations between the fields that the spec's writers keep: a failed command leaves STICKY set
and no RESULT (60_exceptions.md R203, 10_state.md R30, R31), and a response on the port is the one of
the present state (10_state.md R38). Each holds at reset and after every step. -/
abbrev Machine.State.Consistent (s : State) : Prop :=
  (s.err ≠ .ok → s.sticky = true ∧ s.result = none) ∧
    (s.response = none ∨ s.response = some s.currentResponse)

/-- No command has failed since reset: STICKY records it (10_state.md R30). -/
abbrev Machine.State.ErrorFree (s : State) : Prop := s.sticky = false

end Sys2Proof
end

