-- ==== Sys2Proof/Certificates/Slice0/Obligations.lean ====
section
/-! DEFINITION. The statements for the provers, from the numbered rules of spec/. The states they
compute are written out here as records (`Spec.completed`, `Spec.errored`), apart from the model's own
`complete` and `raise`, so that a record shows every field that changes and, by leaving it out, every
field that does not. -/

namespace Sys2Proof.Spec

open Sys2Proof.Machine

/-! ## What the statements are written with -/

/-- The state after a command that succeeds with result `r`: ERR 0, RESULT and RES_VALID from `r`, the
response of that state; STICKY and everything else as in `s` (30_encoding.md R74, 10_state.md R38). -/
def completed (r : Option Word) (s : State) : State :=
  let t : State := { s with err := .ok, result := r }
  { t with response := some ⟨t.status, r⟩ }

/-- The state after a command that raises `e`: the three errors of FSE take the words away, every
error writes ERR, STICKY and RES_VALID, and the response carries no result (60_exceptions.md R203). -/
def errored (e : ErrCode) (s : State) : State :=
  let failed : State := { s with err := e, sticky := true, result := none }
  let t : State :=
    match e with
    | .invalidKeyLength => { failed with v0 := none, v1 := none, v2 := none, v3 := none }
    | .invalidBlockLength => { failed with v0 := none, v1 := none, v2 := none, v3 := none }
    | .invalidRemainderLength => { failed with v0 := none, v1 := none, v2 := none, v3 := none }
    | .ok => failed
    | .illegalCommand => failed
    | .invalidShift => failed
    | .stateNotInitialized => failed
  { t with response := some ⟨t.status, none⟩ }

/-- The state with V = (a, b, c, d). -/
def loaded (a b c d : Word) (s : State) : State :=
  { s with v0 := some a, v1 := some b, v2 := some c, v3 := some d }

/-- The command is the host's next input. -/
abbrev Next (s : State) (cmd : CmdWord) (p : Payload) (rest : List HostInput) : Prop :=
  s.pending = .command cmd p :: rest

/-- In every state the core answers the command with IllegalCommand, and with no other effect than
60_exceptions.md R203 gives that error. -/
def AnsweredIllegal (cmd : CmdWord) (p : Payload) : Prop :=
  ∀ (s : State) (rest : List HostInput), Next s cmd p rest →
    step s = .next (errored .illegalCommand { s with pending := rest })

/-- The illegal words of 30_encoding.md R68, with the 'must 0' fields of R67. -/
def IllegalWord (cmd : CmdWord) : Prop :=
  opField cmd = 0x0 ∨ 0xA ≤ opField cmd ∨ rsvField cmd ≠ 0 ∨
    (opField cmd = 0x1 ∧ (cntField cmd ≠ 0 ∨ tlenField cmd ≠ 0)) ∨
    (opField cmd = 0x2 ∧ tlenField cmd ≠ 0) ∨
    (opField cmd = 0x4 ∧ (plenField cmd ≠ 0 ∨ tlenField cmd ≠ 0)) ∨
    (opField cmd = 0x5 ∧ (plenField cmd ≠ 0 ∨ tlenField cmd ≠ 0)) ∨
    (opField cmd = 0x6 ∧ tlenField cmd ≠ 0) ∨
    (opField cmd = 0x7 ∧ (plenField cmd ≠ 0 ∨ cntField cmd ≠ 0 ∨ tlenField cmd ≠ 0)) ∨
    (opField cmd = 0x8 ∧ (plenField cmd ≠ 0 ∨ 4 ≤ cntField cmd ∨ tlenField cmd ≠ 0)) ∨
    (opField cmd = 0x9 ∧ (4 ≤ cntField cmd ∨ tlenField cmd ≠ 0))

/-- The table of 60_exceptions.md R206: which errors a command with this OP can raise. -/
def canRaise (op : Nat) (e : ErrCode) : Bool :=
  match e with
  | .ok => false
  | .invalidKeyLength => op == 0x1
  | .invalidBlockLength => op == 0x2
  | .invalidRemainderLength => op == 0x3
  | .illegalCommand => true
  | .invalidShift => op == 0x6
  | .stateNotInitialized => op == 0x2 || op == 0x3 || op == 0x4 || op == 0x5 || op == 0x8

/-- The selector SEL of each state word (30_encoding.md R62, 10_state.md R22), and its place in VALID
(10_state.md R24). -/
def selNumber : VReg → Nat
  | .v0 => 0
  | .v1 => 1
  | .v2 => 2
  | .v3 => 3

/-- How many payload bytes, from P[0] on, a command can read (20_memory.md R50). -/
def bytesRead (cmd : CmdWord) : Nat :=
  if opField cmd = 0x1 then 16
  else if opField cmd = 0x2 then 8
  else if opField cmd = 0x3 then plenField cmd
  else if opField cmd = 0x6 then 8
  else if opField cmd = 0x9 then 8
  else 0

/-- The commands that leave the state words alone (20_memory.md R52). -/
def ReadsOnly (i : Instr) : Prop :=
  i.opcode = .stateRead ∨ i.opcode = .accelQuery ∨ i.opcode = .rotl ∨ i.opcode = .finalize

/-- The assembler turns a line into the one command whose word has these fields, RSV 0, with this
payload (30_encoding.md R70). -/
def AssemblesTo (stmt : AsmStmt) (op plen cnt tlen : Nat) (p : Payload) : Prop :=
  ∃ cmd : CmdWord, assemble stmt = some [(cmd, p)] ∧ opField cmd = op ∧ plenField cmd = plen ∧
    rsvField cmd = 0 ∧ cntField cmd = cnt ∧ (tlenField cmd).toNat = tlen

/-! ## The text of a line (30_encoding.md R70, R71) -/

/-- The mnemonic of a statement, in lower case. -/
def mnemonicText : AsmStmt → String
  | .init _ => "init"
  | .absorb _ _ => "absorb"
  | .absorbLast _ _ _ => "absorb_last"
  | .compress _ => "compress"
  | .finalize _ => "finalize"
  | .rotl _ _ => "rotl"
  | .accelQuery => "accel_query"
  | .stateRead _ => "state_read"
  | .stateWrite _ _ => "state_write"
  | .raw _ _ => ".cmd"
  | .sipround => "sipround"
  | .hash _ _ _ _ => "hash"

/-- The lowest `n` hexadecimal digits of a number, most significant first (00_scope.md R8). -/
def hexText : Nat → Nat → List Char
  | 0, _ => []
  | n + 1, value => hexText n (value / 16) ++ [Nat.digitChar (value % 16)]

/-- Payload bytes: two digits each, index 0 first, one blank between two of them. -/
def byteListText : List Byte → List Char
  | [] => []
  | [b] => hexText 2 b.toNat
  | b :: c :: bytes => hexText 2 b.toNat ++ ' ' :: byteListText (c :: bytes)

/-- Payload bytes in brackets. -/
def bytesText (bytes : List Byte) : List Char := '[' :: (byteListText bytes ++ [']'])

/-- A decimal number. -/
def decText (n : Nat) : List Char := Nat.toDigits 10 n

/-- `name=<number>`, with a blank before. -/
def numberText (name : List Char) (n : Nat) : List Char := ' ' :: (name ++ '=' :: decText n)

/-- `name=[bytes]`, with a blank before. -/
def namedBytesText (name : List Char) (bytes : List Byte) : List Char :=
  ' ' :: (name ++ '=' :: bytesText bytes)

/-- A value of `n` hexadecimal digits, with a blank before. -/
def valueText (n value : Nat) : List Char := ' ' :: '0' :: 'x' :: hexText n value

/-- The operands of a statement, as the tables write them after the mnemonic. -/
def operandText : AsmStmt → List Char
  | .init key => ' ' :: bytesText key
  | .absorb c block => numberText ['c'] c ++ ',' :: ' ' :: bytesText block
  | .absorbLast c tlen rem =>
    numberText ['c'] c ++ ',' :: (numberText ['t', 'l', 'e', 'n'] tlen ++ ',' :: ' ' :: bytesText rem)
  | .compress n => numberText ['n'] n
  | .finalize d => numberText ['d'] d
  | .rotl amount x => numberText ['s'] amount ++ ',' :: valueText 16 x.toNat
  | .accelQuery => []
  | .stateRead sel => numberText ['s', 'e', 'l'] sel
  | .stateWrite sel x => numberText ['s', 'e', 'l'] sel ++ ',' :: valueText 16 x.toNat
  | .raw cmd bytes => valueText 8 cmd.toNat ++ ',' :: ' ' :: bytesText bytes
  | .sipround => []
  | .hash c d key msg =>
    numberText ['c'] c ++ ',' :: (numberText ['d'] d ++
      ',' :: (namedBytesText ['k', 'e', 'y'] key ++ ',' :: namedBytesText ['m', 's', 'g'] msg))

end Sys2Proof.Spec

open Sys2Proof Sys2Proof.Machine Sys2Proof.Spec

/-! ## Encoding -/

/-- 30_encoding.md R61, R67: no bit of an encoding is dropped. Every instruction whose counts fit
their fields decodes back from its own words. -/
def Obligations.DecodeInvertsEncode : Prop :=
  ∀ i : Instr, i.wellFormed = true → decode (encode i).1 (encode i).2 = .ok i

/-- 30_encoding.md R61, R67: each word has one meaning. What a word decodes to is well formed, encodes
to that same word, and carries that same payload where its row reads one. -/
def Obligations.EncodeInvertsDecode : Prop :=
  ∀ (cmd : CmdWord) (p : Payload) (i : Instr), decode cmd p = .ok i →
    i.wellFormed = true ∧ (encode i).1 = cmd ∧ ∀ q, i.payload? = some q → q = p ∧ (encode i).2 = p

/-- 30_encoding.md R67: a word selects a command exactly when its AND with the row's mask is the row's
match, and at most one row matches a word. -/
def Obligations.WordSelectsRowByMaskAndMatch : Prop :=
  (∀ (cmd : CmdWord) (p : Payload) (row : OpcodeRow), row ∈ opcodeTable →
    (cmd &&& row.mask = row.pattern ↔ ∃ i, decode cmd p = .ok i ∧ i.opcode = row.opcode)) ∧
  (∀ (cmd : CmdWord) (row row' : OpcodeRow), row ∈ opcodeTable → row' ∈ opcodeTable →
    cmd &&& row.mask = row.pattern → cmd &&& row'.mask = row'.pattern → row = row')

/-- 30_encoding.md R68: exactly the words it lists are rejected by the decoder, and in every state
each raises IllegalCommand with the effects of 60_exceptions.md R203; the all-zero word is one. -/
def Obligations.IllegalEncodingsRaiseIllegalCommand : Prop :=
  (∀ (cmd : CmdWord) (p : Payload), IllegalWord cmd ↔ ∃ e, decode cmd p = .error e) ∧
  (∀ (cmd : CmdWord) (p : Payload), IllegalWord cmd → AnsweredIllegal cmd p) ∧
  IllegalWord 0x00000000#32

/-- 30_encoding.md R61, R62: the five fields are the digits of the command word, each an unsigned
number below its own bound, and the low two bits of CNT are the selector CMD[17:16]. -/
def Obligations.FieldsAreTheDigitsOfTheWord : Prop :=
  ∀ cmd : CmdWord,
    cmd.toNat = opField cmd + 2 ^ 4 * plenField cmd + 2 ^ 9 * rsvField cmd + 2 ^ 16 * cntField cmd
      + 2 ^ 24 * (tlenField cmd).toNat ∧
    opField cmd < 16 ∧ plenField cmd < 32 ∧ rsvField cmd < 128 ∧ cntField cmd < 256 ∧
    (cmd.extractLsb' 16 2).toNat = cntField cmd % 4

/-- 30_encoding.md R72: the worked encodings, from the line of assembly to CMD. -/
def Obligations.WorkedEncodingsAssemble : Prop :=
  (assembleLine "init [00 01 02 03 04 05 06 07 08 09 0a 0b 0c 0d 0e 0f]").map (·.map Prod.fst)
    = some [0x00000101#32] ∧
  (assembleLine "absorb c=2, [00 01 02 03 04 05 06 07]").map (·.map Prod.fst)
    = some [0x00020082#32] ∧
  (assembleLine "absorb_last c=2, tlen=15, [08 09 0a 0b 0c 0d 0e]").map (·.map Prod.fst)
    = some [0x0F020073#32] ∧
  (assembleLine "absorb_last c=2, tlen=0, []").map (·.map Prod.fst) = some [0x00020003#32] ∧
  (assembleLine "absorb_last c=2, tlen=16, []").map (·.map Prod.fst) = some [0x10020003#32] ∧
  (assembleLine "compress n=1").map (·.map Prod.fst) = some [0x00010004#32] ∧
  (assembleLine "finalize d=4").map (·.map Prod.fst) = some [0x00040005#32] ∧
  (assembleLine "rotl s=13, 0x0123456789abcdef").map (·.map Prod.fst) = some [0x000D0086#32] ∧
  (assembleLine "accel_query").map (·.map Prod.fst) = some [0x00000007#32] ∧
  (assembleLine "state_read sel=3").map (·.map Prod.fst) = some [0x00030008#32] ∧
  (assembleLine "state_write sel=2, 0x0000000000000005").map (·.map Prod.fst)
    = some [0x00020089#32]

/-- 95_test_vectors.md section 2.10 and 30_encoding.md R72: words written out from the encodings
decode to the commands they stand for, one for each command. -/
def Obligations.SampleWordsDecode : Prop :=
  ∀ p : Payload,
    decode 0x00000101#32 p = .ok (.init 16 p) ∧
    decode 0x00020082#32 p = .ok (.absorb 8 2 p) ∧
    decode 0x0F020073#32 p = .ok (.absorbLast 7 2 15#8 p) ∧
    decode 0x00010004#32 p = .ok (.compress 1) ∧
    decode 0x00040005#32 p = .ok (.finalize 4) ∧
    decode 0x000D0086#32 p = .ok (.rotl 8 13 p) ∧
    decode 0x00000007#32 p = .ok .accelQuery ∧
    decode 0x00030008#32 p = .ok (.stateRead .v3) ∧
    decode 0x00020089#32 p = .ok (.stateWrite 8 .v2 p) ∧
    decode 0x00000201#32 p = .error .reservedBits ∧
    decode 0x000001F1#32 p = .ok (.init 31 p)

/-- 30_encoding.md R70: the fields each parsed statement sets, for every operand in its range, the
little-endian bytes of a 64-bit operand, and what the assembler refuses. That a byte list may be
shorter than PLEN is the model's reading (log entry 10). -/
def Obligations.AssemblerSetsTheFieldsOfEachLine : Prop :=
  (∀ key, key.length ≤ 16 → AssemblesTo (.init key) 1 16 0 0 (padPayload key)) ∧
  (∀ c block, c ≤ 255 → block.length ≤ 8 →
    AssemblesTo (.absorb c block) 2 8 c 0 (padPayload block)) ∧
  (∀ c tlen rem, c ≤ 255 → tlen ≤ 255 → rem.length ≤ 7 →
    AssemblesTo (.absorbLast c tlen rem) 3 rem.length c tlen (padPayload rem)) ∧
  (∀ n, n ≤ 255 → AssemblesTo (.compress n) 4 0 n 0 (padPayload [])) ∧
  (∀ d, d ≤ 255 → AssemblesTo (.finalize d) 5 0 d 0 (padPayload [])) ∧
  (∀ amount x, 1 ≤ amount → amount ≤ 63 →
    AssemblesTo (.rotl amount x) 6 8 amount 0 (padPayload (valueBytes x))) ∧
  AssemblesTo .accelQuery 7 0 0 0 (padPayload []) ∧
  (∀ sel, sel ≤ 3 → AssemblesTo (.stateRead sel) 8 0 sel 0 (padPayload [])) ∧
  (∀ sel x, sel ≤ 3 → AssemblesTo (.stateWrite sel x) 9 8 sel 0 (padPayload (valueBytes x))) ∧
  (∀ x, le64 (payloadLow (padPayload (valueBytes x))) = x) ∧
  (∀ (bytes : List Byte) (i : Fin 16),
    (padPayload bytes)[i.val] = if h : i.val < bytes.length then bytes[i.val] else 0x00#8) ∧
  (∀ cmd bytes, bytes.length ≤ 16 → assemble (.raw cmd bytes) = some [(cmd, padPayload bytes)]) ∧
  (∀ key, 16 < key.length → assemble (.init key) = none ∧ ∀ cmd, assemble (.raw cmd key) = none) ∧
  (∀ c block, 255 < c ∨ 8 < block.length → assemble (.absorb c block) = none) ∧
  (∀ c tlen rem, 255 < c ∨ 255 < tlen ∨ 7 < rem.length →
    assemble (.absorbLast c tlen rem) = none) ∧
  (∀ n, 255 < n → assemble (.compress n) = none ∧ assemble (.finalize n) = none) ∧
  (∀ amount x, amount = 0 ∨ 63 < amount → assemble (.rotl amount x) = none) ∧
  (∀ sel x, 3 < sel → assemble (.stateRead sel) = none ∧ assemble (.stateWrite sel x) = none)

/-- 30_encoding.md R70: a line of assembly in the syntax of its table, with the mnemonic in lower or
in upper case, assembles as the statement it writes, for every statement; the lines of R71 too. -/
def Obligations.EveryLineOfAssemblyReadsBack : Prop :=
  ∀ stmt : AsmStmt,
    assembleLine (String.ofList ((mnemonicText stmt).toList ++ operandText stmt)) = assemble stmt ∧
    assembleLine (String.ofList ((mnemonicText stmt).toList.map Char.toUpper ++ operandText stmt))
      = assemble stmt

/-- `tlen` on any mnemonic but `absorb_last` is refused (30_encoding.md R70), and so is a line that
begins with no mnemonic of the tables. That a mnemonic is written all in lower or all in upper case, so
that `Absorb_Last` with `tlen` and `Init` are refused in the two clauses, and that an unknown mnemonic is
refused at all, which R70's list of refusals does not name, is the model's reading (log entry 10). -/
def Obligations.AssemblerRefusesTlenAndUnknownMnemonics : Prop :=
  (∀ (line : String) (m : List Char) (rest : List Token),
    lexFrom [] line.toList = .word m :: rest →
    m ≠ "absorb_last".toList → m ≠ "ABSORB_LAST".toList → .word "tlen".toList ∈ rest →
    assembleLine line = none) ∧
  (∀ (line : String) (m : List Char) (rest : List Token),
    lexFrom [] line.toList = .word m :: rest →
    (∀ stmt, m ≠ (mnemonicText stmt).toList ∧ m ≠ (mnemonicText stmt).toList.map Char.toUpper) →
    assembleLine line = none)

/-- 30_encoding.md R71, 42_absorb.md R136: the pseudo-instruction `hash` assembles to the commands of
the host protocol, and `sipround` to COMPRESS with n = 1. -/
def Obligations.PseudoInstructionsExpand : Prop :=
  (∀ (c d : Nat) (key msg : List Byte), c ≤ 255 → d ≤ 255 → key.length = 16 →
    assemble (.hash c d key msg) = some (hashCommands c d (padPayload key) msg)) ∧
  assemble .sipround = assemble (.compress 1) ∧
  assemble .sipround = some [encode (.compress 1)]

/-! ## The step -/

/-- 30_encoding.md R73: the step runs the instruction the decoder reads, on the state with the command
taken off the host's list (10_state.md R34; the list is the model's own field, log entry 3). -/
def Obligations.StepRunsDecodedInstruction : Prop :=
  ∀ (s : State) (cmd : CmdWord) (p : Payload) (rest : List HostInput) (i : Instr),
    Next s cmd p rest → decode cmd p = .ok i → step s = exec i { s with pending := rest }

/-- 60_exceptions.md R202: a command that fails a check reports the first one it fails, with the
effects of R203; a command that passes them all runs its instruction and reports success. The check
reads CMD and VALID only. -/
def Obligations.StepReportsFirstFailingCheck : Prop :=
  ∀ (s : State) (cmd : CmdWord) (p : Payload) (rest : List HostInput), Next s cmd p rest →
    (check s.valid cmd ≠ .ok →
      step s = .next (errored (check s.valid cmd) { s with pending := rest })) ∧
    (check s.valid cmd = .ok →
      ∃ i t, decode cmd p = .ok i ∧ exec i { s with pending := rest } = .next t ∧
        step s = .next t ∧ t.err = .ok)

/-- With no input from the host a step answers the same state. 60_exceptions.md R215 says it of the
core's state; that the response stays on the port (70_reset_and_hazards.md R251), and the host's empty
list with it, is the model's reading (log entry 5). -/
def Obligations.StepWithoutInputHoldsState : Prop :=
  ∀ s : State, s.pending = [] → step s = .next s

/-- One step takes exactly the host's next input, and nothing changes the inputs after it. The rules
say that commands take effect in the order of issue (10_state.md R27, 20_memory.md R53) and that none
changes a later one (R55); the list `pending` itself is the model's own field (log entry 3), and that a
reset leaves the later inputs in it is the model's choice (log entry 11). -/
def Obligations.StepTakesExactlyTheNextInput : Prop :=
  ∀ s t : State, step s = .next t → t.pending = s.pending.tail

/-- 70_reset_and_hazards.md R250, 60_exceptions.md R204: every step completes; nothing stops the
core. -/
def Obligations.EveryStepCompletes : Prop :=
  ∀ s : State, ∃ t : State, step s = .next t

/-- 10_state.md R38: after a command the port shows one response, formed from the state after it. -/
def Obligations.ResponseIsFormedFromTheStateAfter : Prop :=
  ∀ (s t : State) (cmd : CmdWord) (p : Payload) (rest : List HostInput), Next s cmd p rest →
    step s = .next t → t.response = some ⟨t.status, t.result⟩

/-! ## The commands -/

/-- 40_init.md R101: INIT, its encoding, its effect from every state, and its errors. -/
def Obligations.InitLoadsTheKeyedConstants : Prop :=
  ∀ (p : Payload) (s : State),
    exec (.init 16 p) s = .next (completed none (loaded
      (0x736f6d6570736575#64 ^^^ le64 (payloadLow p)) (0x646f72616e646f6d#64 ^^^ le64 (payloadHigh p))
      (0x6c7967656e657261#64 ^^^ le64 (payloadLow p)) (0x7465646279746573#64 ^^^ le64 (payloadHigh p))
      s)) ∧
    (∀ plen, plen ≠ 16 → exec (.init plen p) s = .next (errored .invalidKeyLength s)) ∧
    (∀ cmd, opField cmd = 0x1 → rsvField cmd = 0 → cntField cmd = 0 → tlenField cmd = 0 →
      decode cmd p = .ok (.init (plenField cmd) p)) ∧
    (∀ cmd, opField cmd = 0x1 → rsvField cmd ≠ 0 ∨ cntField cmd ≠ 0 ∨ tlenField cmd ≠ 0 →
      AnsweredIllegal cmd p)

/-- 42_absorb.md R131 with R130: ABSORB, its encoding, its effect on every valid state, and its
errors. -/
def Obligations.AbsorbFoldsInOneBlock : Prop :=
  ∀ (c : Nat) (p : Payload) (s : State),
    (∀ v0 v1 v2 v3 T, s.v0 = some v0 → s.v1 = some v1 → s.v2 = some v2 → s.v3 = some v3 →
      T = compress ⟨v0, v1, v2, v3 ^^^ le64 (payloadLow p)⟩ c →
      exec (.absorb 8 c p) s =
        .next (completed none (loaded (T.v0 ^^^ le64 (payloadLow p)) T.v1 T.v2 T.v3 s))) ∧
    (∀ plen, plen ≠ 8 → exec (.absorb plen c p) s = .next (errored .invalidBlockLength s)) ∧
    (s.valid ≠ 0b1111#4 → exec (.absorb 8 c p) s = .next (errored .stateNotInitialized s)) ∧
    (∀ cmd, opField cmd = 0x2 → rsvField cmd = 0 → tlenField cmd = 0 →
      decode cmd p = .ok (.absorb (plenField cmd) (cntField cmd) p)) ∧
    (∀ cmd, opField cmd = 0x2 → rsvField cmd ≠ 0 ∨ tlenField cmd ≠ 0 → AnsweredIllegal cmd p)

/-- 42_absorb.md R134 with R130, R132 and R135: ABSORB_LAST, its encoding, its effect on every valid
state for every TLEN, and its errors. -/
def Obligations.AbsorbLastFoldsInThePaddedBlock : Prop :=
  ∀ (c : Nat) (tlen : Byte) (p : Payload) (s : State),
    (∀ plen v0 v1 v2 v3 m T, plen ≤ 7 →
      s.v0 = some v0 → s.v1 = some v1 → s.v2 = some v2 → s.v3 = some v3 →
      m = le64 #v[if 0 < plen then p[0] else 0, if 1 < plen then p[1] else 0,
        if 2 < plen then p[2] else 0, if 3 < plen then p[3] else 0, if 4 < plen then p[4] else 0,
        if 5 < plen then p[5] else 0, if 6 < plen then p[6] else 0, tlen] →
      T = compress ⟨v0, v1, v2, v3 ^^^ m⟩ c →
      exec (.absorbLast plen c tlen p) s =
        .next (completed none (loaded (T.v0 ^^^ m) T.v1 T.v2 T.v3 s))) ∧
    (∀ plen, 7 < plen →
      exec (.absorbLast plen c tlen p) s = .next (errored .invalidRemainderLength s)) ∧
    (∀ plen, plen ≤ 7 → s.valid ≠ 0b1111#4 →
      exec (.absorbLast plen c tlen p) s = .next (errored .stateNotInitialized s)) ∧
    (∀ cmd, opField cmd = 0x3 → rsvField cmd = 0 →
      decode cmd p = .ok (.absorbLast (plenField cmd) (cntField cmd) (tlenField cmd) p)) ∧
    (∀ cmd, opField cmd = 0x3 → rsvField cmd ≠ 0 → AnsweredIllegal cmd p)

/-- 41_sipround.md R114: COMPRESS, its encoding, its effect on every valid state, and its errors, for
every count, 0 included. -/
def Obligations.CompressAppliesTheRounds : Prop :=
  ∀ (n : Nat) (p : Payload) (s : State),
    (∀ v0 v1 v2 v3 T, s.v0 = some v0 → s.v1 = some v1 → s.v2 = some v2 → s.v3 = some v3 →
      T = compress ⟨v0, v1, v2, v3⟩ n →
      exec (.compress n) s = .next (completed none (loaded T.v0 T.v1 T.v2 T.v3 s))) ∧
    (s.valid ≠ 0b1111#4 → exec (.compress n) s = .next (errored .stateNotInitialized s)) ∧
    (∀ cmd, opField cmd = 0x4 → rsvField cmd = 0 → plenField cmd = 0 → tlenField cmd = 0 →
      decode cmd p = .ok (.compress (cntField cmd))) ∧
    (∀ cmd, opField cmd = 0x4 → rsvField cmd ≠ 0 ∨ plenField cmd ≠ 0 ∨ tlenField cmd ≠ 0 →
      AnsweredIllegal cmd p)

/-- 43_finalize.md R151 with R150: FINALIZE, its encoding, the digest of every valid state with the
state kept, and its errors. -/
def Obligations.FinalizeReturnsTheDigest : Prop :=
  ∀ (d : Nat) (p : Payload) (s : State),
    (∀ v0 v1 v2 v3 W, s.v0 = some v0 → s.v1 = some v1 → s.v2 = some v2 → s.v3 = some v3 →
      W = compress ⟨v0, v1, v2 ^^^ 0x00000000000000ff#64, v3⟩ d →
      exec (.finalize d) s = .next (completed (some (((W.v0 ^^^ W.v1) ^^^ W.v2) ^^^ W.v3)) s)) ∧
    (s.valid ≠ 0b1111#4 → exec (.finalize d) s = .next (errored .stateNotInitialized s)) ∧
    (∀ cmd, opField cmd = 0x5 → rsvField cmd = 0 → plenField cmd = 0 → tlenField cmd = 0 →
      decode cmd p = .ok (.finalize (cntField cmd))) ∧
    (∀ cmd, opField cmd = 0x5 → rsvField cmd ≠ 0 ∨ plenField cmd ≠ 0 ∨ tlenField cmd ≠ 0 →
      AnsweredIllegal cmd p)

/-- 44_rotate.md R161: ROTL, its encoding, its result from every state for every legal amount, and its
errors, the length before the amount. -/
def Obligations.RotlReturnsTheRotation : Prop :=
  ∀ (p : Payload) (s : State),
    (∀ amount, 1 ≤ amount → amount ≤ 63 → exec (.rotl 8 amount p) s =
      .next (completed (some ((le64 (payloadLow p)).rotateLeft amount)) s)) ∧
    (∀ plen amount, plen ≠ 8 →
      exec (.rotl plen amount p) s = .next (errored .illegalCommand s)) ∧
    (∀ amount, amount = 0 ∨ 64 ≤ amount →
      exec (.rotl 8 amount p) s = .next (errored .invalidShift s)) ∧
    (∀ cmd, opField cmd = 0x6 → rsvField cmd = 0 → tlenField cmd = 0 →
      decode cmd p = .ok (.rotl (plenField cmd) (cntField cmd) p)) ∧
    (∀ cmd, opField cmd = 0x6 → rsvField cmd ≠ 0 ∨ tlenField cmd ≠ 0 → AnsweredIllegal cmd p)

/-- 45_host.md R170: ACCEL_QUERY, its one encoding and its result from every state. -/
def Obligations.AccelQueryReturnsTheFlag : Prop :=
  ∀ (p : Payload) (s : State),
    (s.accelActive = true → exec .accelQuery s = .next (completed (some 1#64) s)) ∧
    (s.accelActive = false → exec .accelQuery s = .next (completed (some 0#64) s)) ∧
    decode 0x00000007#32 p = .ok .accelQuery ∧
    (∀ cmd, opField cmd = 0x7 → cmd ≠ 0x00000007#32 → AnsweredIllegal cmd p)

/-- 45_host.md R171: STATE_READ, its encoding, its result from every state in which the selected word
holds a value, and its errors. -/
def Obligations.StateReadReturnsTheWord : Prop :=
  ∀ (sel : VReg) (p : Payload) (s : State),
    (∀ x, (match sel with | .v0 => s.v0 | .v1 => s.v1 | .v2 => s.v2 | .v3 => s.v3) = some x →
      exec (.stateRead sel) s = .next (completed (some x) s)) ∧
    (s.valid.getLsbD (selNumber sel) = false →
      exec (.stateRead sel) s = .next (errored .stateNotInitialized s)) ∧
    (∀ cmd, opField cmd = 0x8 → rsvField cmd = 0 → plenField cmd = 0 → tlenField cmd = 0 →
      cntField cmd = selNumber sel → decode cmd p = .ok (.stateRead sel)) ∧
    (∀ cmd, opField cmd = 0x8 →
      4 ≤ cntField cmd ∨ rsvField cmd ≠ 0 ∨ plenField cmd ≠ 0 ∨ tlenField cmd ≠ 0 →
      AnsweredIllegal cmd p)

/-- 45_host.md R172: STATE_WRITE, its encoding, its effect from every state with the other three words
kept, and its errors. -/
def Obligations.StateWriteLoadsTheWord : Prop :=
  ∀ (sel : VReg) (p : Payload) (s : State),
    exec (.stateWrite 8 sel p) s = .next (completed none
      (match sel with
        | .v0 => { s with v0 := some (le64 (payloadLow p)) }
        | .v1 => { s with v1 := some (le64 (payloadLow p)) }
        | .v2 => { s with v2 := some (le64 (payloadLow p)) }
        | .v3 => { s with v3 := some (le64 (payloadLow p)) })) ∧
    (∀ plen, plen ≠ 8 → exec (.stateWrite plen sel p) s = .next (errored .illegalCommand s)) ∧
    (∀ cmd, opField cmd = 0x9 → rsvField cmd = 0 → tlenField cmd = 0 →
      cntField cmd = selNumber sel → decode cmd p = .ok (.stateWrite (plenField cmd) sel p)) ∧
    (∀ cmd, opField cmd = 0x9 → 4 ≤ cntField cmd ∨ rsvField cmd ≠ 0 ∨ tlenField cmd ≠ 0 →
      AnsweredIllegal cmd p)

/-! ## Errors and flags, over every command -/

/-- 60_exceptions.md R203: whatever command fails, the state after it is the state before it with the
changes of `raise` and no other. -/
def Obligations.ErrorsChangeOnlyWhatRaiseWrites : Prop :=
  ∀ (s t : State) (cmd : CmdWord) (p : Payload) (rest : List HostInput), Next s cmd p rest →
    step s = .next t → t.err ≠ .ok → t = errored t.err { s with pending := rest }

/-- 60_exceptions.md R206: which errors a command can raise, both that it can and that it can raise no
other. -/
def Obligations.CommandsRaiseExactlyTheirErrors : Prop :=
  ∀ (op : Nat) (e : ErrCode), op < 16 → e ≠ .ok →
    ((∃ (s t : State) (cmd : CmdWord) (p : Payload) (rest : List HostInput),
        Next s cmd p rest ∧ opField cmd = op ∧ step s = .next t ∧ t.err = e) ↔
      canRaise op e = true)

/-- 10_state.md R29: every command writes ERR, 0 exactly when it succeeds; the values are 0 to 6, each
the number of its error in the table of 60_exceptions.md R201; the reset value is 0. -/
def Obligations.ErrIsTheLastCommandsCode : Prop :=
  (∀ (s t : State) (cmd : CmdWord) (p : Payload) (rest : List HostInput), Next s cmd p rest →
    step s = .next t →
    t.err = check s.valid cmd ∧ (t.err.code = 0#4 ↔ check s.valid cmd = .ok)) ∧
  (∀ e : ErrCode, e.code.toNat ≤ 6) ∧ ErrCode.ok.code = 0#4 ∧ ErrCode.invalidKeyLength.code = 1#4 ∧
  ErrCode.invalidBlockLength.code = 2#4 ∧ ErrCode.invalidRemainderLength.code = 3#4 ∧
  ErrCode.illegalCommand.code = 4#4 ∧ ErrCode.invalidShift.code = 5#4 ∧
  ErrCode.stateNotInitialized.code = 6#4 ∧ State.reset.err.code = 0#4

/-- 10_state.md R30: STICKY is set by every command that fails, kept by every command that succeeds,
and cleared by reset alone; its reset value is 0. -/
def Obligations.StickyRecordsEveryError : Prop :=
  (∀ (s t : State) (cmd : CmdWord) (p : Payload) (rest : List HostInput), Next s cmd p rest →
    step s = .next t →
    (t.err ≠ .ok → t.sticky = true) ∧ (t.err = .ok → t.sticky = s.sticky)) ∧
  (∀ s t : State, step s = .next t → s.sticky = true → t.sticky = false →
    ∃ input rest, s.pending = input :: rest ∧ ∀ cmd p, input ≠ .command cmd p) ∧
  (∀ s : State, s.resetCore.sticky = false) ∧ State.reset.sticky = false

/-- 10_state.md R31: RES_VALID is 1 after a successful FINALIZE, ROTL, ACCEL_QUERY or STATE_READ, and
0, with no value in RESULT, after every other command and every error; its reset value is 0. -/
def Obligations.ResultIsValidAfterFourCommands : Prop :=
  (∀ (s t : State) (cmd : CmdWord) (p : Payload) (rest : List HostInput), Next s cmd p rest →
    step s = .next t →
    (t.resValid = true ↔ t.err = .ok ∧
      (opField cmd = 0x5 ∨ opField cmd = 0x6 ∨ opField cmd = 0x7 ∨ opField cmd = 0x8)) ∧
    (t.resValid = false ↔ t.result = none)) ∧
  State.reset.resValid = false ∧ State.reset.result = none

/-- 10_state.md R24: who writes VALID, and what: INIT all four bits, STATE_WRITE the selected bit, an
abort and a reset none left; no other command changes it; bit i is 1 exactly when V[i] holds a
value. -/
def Obligations.ValidHasExactlyItsWriters : Prop :=
  (∀ (s t : State) (cmd : CmdWord) (p : Payload) (rest : List HostInput), Next s cmd p rest →
    step s = .next t →
    t.valid =
      if t.err = .invalidKeyLength ∨ t.err = .invalidBlockLength ∨ t.err = .invalidRemainderLength
      then 0b0000#4
      else if t.err = .ok ∧ opField cmd = 0x1 then 0b1111#4
      else if t.err = .ok ∧ opField cmd = 0x9 then s.valid ||| (1#4 <<< cntField cmd)
      else s.valid) ∧
  (∀ s : State, s.valid.getLsbD 0 = s.v0.isSome ∧ s.valid.getLsbD 1 = s.v1.isSome ∧
    s.valid.getLsbD 2 = s.v2.isSome ∧ s.valid.getLsbD 3 = s.v3.isSome) ∧
  (∀ (s : State) (i : VReg), s.valid.getLsbD (selNumber i) = (s.readV i).isSome) ∧
  (∀ s : State, s.resetCore.valid = 0b0000#4) ∧ State.reset.valid = 0b0000#4

/-- 10_state.md R28: every field of STATUS at its place, the reserved bits 0, the reset values, and no
change of STATUS without an input of the host. -/
def Obligations.StatusHasItsFields : Prop :=
  (∀ s : State,
    s.status.extractLsb' 0 4 = s.err.code ∧ s.status.getLsbD 4 = s.sticky ∧
    s.status.extractLsb' 5 3 = 0#3 ∧ s.status.extractLsb' 8 4 = s.valid ∧
    s.status.getLsbD 12 = s.resValid ∧ s.status.getLsbD 13 = s.accelActive ∧
    s.status.extractLsb' 14 18 = 0#18) ∧
  (∀ s : State, s.resetCore.status.extractLsb' 0 4 = 0#4 ∧ s.resetCore.status.getLsbD 4 = false ∧
    s.resetCore.status.extractLsb' 8 4 = 0#4 ∧ s.resetCore.status.getLsbD 12 = false ∧
    s.resetCore.status.getLsbD 13 = s.accelActive) ∧
  (∀ s t : State, s.pending = [] → step s = .next t → t.status = s.status)

/-! ## Reset -/

/-- 70_reset_and_hazards.md R240: the reset state, and the two words STATUS can read in it. -/
def Obligations.ResetLeavesItsState : Prop :=
  (State.reset.v0 = none ∧ State.reset.v1 = none ∧ State.reset.v2 = none ∧ State.reset.v3 = none ∧
    State.reset.valid = 0b0000#4 ∧ State.reset.err = .ok ∧ State.reset.sticky = false ∧
    State.reset.resValid = false ∧ State.reset.result = none) ∧
  (State.reset.accelActive = false → State.reset.status = 0x00000000#32) ∧
  (State.reset.accelActive = true → State.reset.status = 0x00002000#32)

/-- 70_reset_and_hazards.md R241, R242: a reset between two commands, or inside one, leaves the reset
state whatever the state was and whatever the command, keeps ACCEL_ACTIVE, and delivers no response.
That nothing at all stands on the port afterwards, and that the host's later inputs stay, are the
model's choices (log entries 4 and 11). -/
def Obligations.ResetReplacesEveryState : Prop :=
  ∀ (s : State) (input : HostInput) (rest : List HostInput), s.pending = input :: rest →
    (input = .reset ∨ ∃ cmd p, input = .resetDuring cmd p) →
    step s = .next
      { v0 := none, v1 := none, v2 := none, v3 := none, err := .ok, sticky := false, result := none,
        accelActive := s.accelActive, response := none, pending := rest }

/-! ## What does not influence what -/

/-- 10_state.md R32, 41_sipround.md R115: no step changes ACCEL_ACTIVE; it shows in STATUS[13] and in
ACCEL_QUERY's RESULT, and changes nothing else. -/
def Obligations.AccelActiveIsOnlyObserved : Prop :=
  (∀ s t : State, step s = .next t → t.accelActive = s.accelActive) ∧
  (∀ s : State, s.status.getLsbD 13 = s.accelActive) ∧
  (∀ s t : State, exec .accelQuery s = .next t →
    t.result = some (if s.accelActive then 1#64 else 0#64)) ∧
  (∀ (s t u : State) (b : Bool), step s = .next t → step { s with accelActive := b } = .next u →
    u.v0 = t.v0 ∧ u.v1 = t.v1 ∧ u.v2 = t.v2 ∧ u.v3 = t.v3 ∧ u.err = t.err ∧ u.sticky = t.sticky ∧
    u.pending = t.pending ∧ u.resValid = t.resValid ∧
    ((∀ cmd p rest, Next s cmd p rest → opField cmd ≠ 0x7) → u.result = t.result))

/-- 20_memory.md R50: payloads that agree on the bytes the command's row reads give the same step, and
a command that raises an error gives the same step for all payloads. -/
def Obligations.UnreadPayloadBytesHaveNoEffect : Prop :=
  (∀ (s : State) (cmd : CmdWord) (p q : Payload) (rest : List HostInput),
    (∀ k, k < bytesRead cmd → p[k]? = q[k]?) →
    step { s with pending := .command cmd p :: rest } =
      step { s with pending := .command cmd q :: rest }) ∧
  (∀ (s : State) (cmd : CmdWord) (p q : Payload) (rest : List HostInput),
    check s.valid cmd ≠ .ok →
    step { s with pending := .command cmd p :: rest } =
      step { s with pending := .command cmd q :: rest })

/-- 20_memory.md R52: FINALIZE, ROTL, ACCEL_QUERY and STATE_READ leave the state words as they were,
and issued twice give the same state, and so the same result, twice; INIT twice with one key gives the
same state. -/
def Obligations.ReadingCommandsKeepTheWordsAndRepeat : Prop :=
  (∀ (i : Instr) (s t : State), ReadsOnly i → exec i s = .next t →
    t.v0 = s.v0 ∧ t.v1 = s.v1 ∧ t.v2 = s.v2 ∧ t.v3 = s.v3 ∧ exec i t = .next t) ∧
  (∀ (p : Payload) (s t : State), exec (.init 16 p) s = .next t → exec (.init 16 p) t = .next t)

/-- 40_init.md R102: INIT is the only command that sets all four VALID bits at once; and from an
aborted state ABSORB, ABSORB_LAST, COMPRESS and FINALIZE report an error until the words are loaded
again. -/
def Obligations.OnlyInitMakesAnEmptyStateValid : Prop :=
  (∀ (i : Instr) (s t : State), exec i s = .next t → s.valid = 0b0000#4 → t.valid = 0b1111#4 →
    ∃ p, i = .init 16 p) ∧
  (∀ (i : Instr) (s t : State), exec i s = .next t → s.valid = 0b0000#4 →
    i.opcode = .absorb ∨ i.opcode = .absorbLast ∨ i.opcode = .compress ∨ i.opcode = .finalize →
    t.err ≠ .ok ∧ t.valid = 0b0000#4)

/-! ## The functions of the computation -/

/-- 20_memory.md R42, R43: LE64 is the sum of its bytes' weights, byte i is bits [8i+7:8i], and the
two words of a payload are the decodes of P[0..7] and P[8..15]. -/
def Obligations.LittleEndianDecode : Prop :=
  (∀ b : Vector Byte 8,
    (le64 b).toNat = b[0].toNat + b[1].toNat * 2 ^ 8 + b[2].toNat * 2 ^ 16 + b[3].toNat * 2 ^ 24
      + b[4].toNat * 2 ^ 32 + b[5].toNat * 2 ^ 40 + b[6].toNat * 2 ^ 48 + b[7].toNat * 2 ^ 56) ∧
  (∀ (b : Vector Byte 8) (i : Fin 8), (le64 b).extractLsb' (8 * i.val) 8 = b[i.val]) ∧
  (∀ (p : Payload) (i : Fin 8),
    (lowWord p).extractLsb' (8 * i.val) 8 = p[i.val] ∧
    (highWord p).extractLsb' (8 * i.val) 8 = p[i.val + 8])

/-- 42_absorb.md R133: the final block as a word: TLEN above, the remainder below, zeros between. -/
def Obligations.FinalBlockAsAWord : Prop :=
  ∀ (p : Payload) (plen : Nat) (tlen : Byte), plen ≤ 7 →
    finalWord p plen tlen =
      ((tlen.zeroExtend 64) <<< 56) ||| (le64 (payloadLow p) &&& BitVec.ofNat 64 (2 ^ (8 * plen) - 1)) ∧
    (finalWord p plen tlen).extractLsb' 56 8 = tlen ∧
    (∀ k, 8 * plen ≤ k → k < 56 → (finalWord p plen tlen).getLsbD k = false) ∧
    (∀ k, k < 8 * plen → (finalWord p plen tlen).getLsbD k = (le64 (payloadLow p)).getLsbD k)

/-- 41_sipround.md R110, R112: the round function, in the order of its eight steps, with Lean's own
64-bit rotation. -/
def Obligations.SipRoundFollowsItsEightSteps : Prop :=
  ∀ a0 b0 c0 d0 a1 c1 b2 d2 b3 d3 a4 c5 a5 b6 d6 b7 d7 c8 : Word,
    a1 = a0 + b0 → c1 = c0 + d0 →
    b2 = b0.rotateLeft 13 → d2 = d0.rotateLeft 16 →
    b3 = b2 ^^^ a1 → d3 = d2 ^^^ c1 →
    a4 = a1.rotateLeft 32 →
    c5 = c1 + b3 → a5 = a4 + d3 →
    b6 = b3.rotateLeft 17 → d6 = d3.rotateLeft 21 →
    b7 = b6 ^^^ c5 → d7 = d6 ^^^ a5 →
    c8 = c5.rotateLeft 32 →
    sipRound ⟨a0, b0, c0, d0⟩ = ⟨a5, b7, c8, d7⟩

/-- 41_sipround.md R116: SipRound is a bijection on the states. -/
def Obligations.SipRoundIsABijection : Prop :=
  Function.Bijective sipRound

/-- 41_sipround.md R113: Compress is the iteration of SipRound, the identity at 0, and composes. -/
def Obligations.CompressIteratesAndComposes : Prop :=
  (∀ S : SipState, compress S 0 = S) ∧
  (∀ (S : SipState) (n : Nat), compress S (n + 1) = sipRound (compress S n)) ∧
  (∀ (S : SipState) (a b : Nat), compress (compress S a) b = compress S (a + b))

/-- 44_rotate.md R160: the rotation as masked shifts of unbounded integers, bit by bit, and ROTL's
refusal of the amounts it is not defined for. -/
def Obligations.RotationMovesEachBit : Prop :=
  (∀ (x : Word) (k : Nat), 0 < k → k < 64 →
    (rotl64 x k).toNat =
      ((x.toNat <<< k) &&& 0xffffffffffffffff) ||| (x.toNat >>> (64 - k))) ∧
  (∀ (x : Word) (k i : Nat), 0 < k → k < 64 → i < 64 →
    (rotl64 x k).getLsbD i = x.getLsbD ((i + 64 - k) % 64)) ∧
  (∀ (p : Payload) (s : State) (k : Nat), k = 0 ∨ 64 ≤ k →
    exec (.rotl 8 k p) s = .next (errored .invalidShift s))

/-- 44_rotate.md R162: rotating by s and then by 64 - s gives the value back. -/
def Obligations.RotationInverse : Prop :=
  ∀ (x : Word) (k : Nat), 1 ≤ k → k ≤ 63 → rotl64 (rotl64 x k) (64 - k) = x

/-- 42_absorb.md R136: from every state, the commands of the host protocol for a key and a message
give SipHash-c-d(key, msg) in RESULT and raise no error. That the commands stand in the list `pending`
and that the host's later inputs stay in it is the model's choice (log entry 3). -/
def Obligations.HostProtocolComputesTheDigest : Prop :=
  ∀ (c d : Nat) (key : Payload) (msg : List Byte) (s : State) (rest : List HostInput),
    c ≤ 255 → d ≤ 255 → s.pending = issue (hashCommands c d key msg) ++ rest →
    ∃ t : State, Host.Core.run core (msg.length / 8 + 3) s = .next t ∧
      t.result = some (sipHash c d key msg) ∧ t.err = .ok ∧ t.sticky = s.sticky ∧ t.pending = rest

/-! ## The invariant -/

/-- Every step keeps the relations between the fields. After a command they are 60_exceptions.md R203
(ERR, STICKY, RESULT) and 10_state.md R38 (the response). The clause on the response holds through a
reset by the model's choice that none stands on the port then (log entry 4), and through a step without
input by the model's reading that the last one stays (log entry 5). -/
def Obligations.StepKeepsConsistency : Prop :=
  ∀ s t : State, s.Consistent → step s = .next t → t.Consistent

/-- The relations between the fields hold after reset: ERR is 0 by 70_reset_and_hazards.md R240, and
the clause on the response by the model's choice that none stands on the port then (log entry 4), of
which R240 says nothing. -/
def Obligations.ResetIsConsistent : Prop :=
  State.reset.Consistent
end

