-- ==== Sys2Proof/Laws/Check.lean ====
section
/-! SUPPORT. An ordered list of checks reports one that failed. -/

namespace Sys2Proof.Machine

/-- What `firstError` can answer: OK, or the error of a check in the list that failed. -/
theorem firstError_cases (checks : List (Bool × ErrCode)) :
    firstError checks = .ok ∨ (true, firstError checks) ∈ checks := by
  induction checks with
  | nil => exact .inl rfl
  | cons head later ih =>
    obtain ⟨fails, e⟩ := head
    cases fails with
    | true => exact .inr (by simp [firstError])
    | false =>
      rcases ih with h | h
      · exact .inl (by simpa [firstError] using h)
      · exact .inr (List.mem_cons_of_mem _ (by simpa [firstError] using h))

/-- A list of checks none of which fails reports OK. -/
theorem firstError_of_none_fails (checks : List (Bool × ErrCode))
    (h : ∀ entry ∈ checks, entry.1 = false) : firstError checks = .ok := by
  induction checks with
  | nil => rfl
  | cons head later ih =>
    have h0 : head.1 = false := h head (by simp)
    simp only [firstError, h0]
    exact ih fun entry he => h entry (by simp [he])

end Sys2Proof.Machine
end

