-- ==== Sys2Proof/Laws/Decode.lean ====
section
/-! SUPPORT. The fields of a command word as digits of its number, the fields of a packed word, and
what a successful decoding says. -/

namespace Sys2Proof

/-! ## Fields as digits -/

theorem opField_eq_mod (cmd : CmdWord) : opField cmd = cmd.toNat % 16 := by
  simp [opField, BitVec.extractLsb'_toNat]

theorem plenField_eq_digit (cmd : CmdWord) : plenField cmd = cmd.toNat / 16 % 32 := by
  simp [plenField, BitVec.extractLsb'_toNat, Nat.shiftRight_eq_div_pow]

theorem rsvField_eq_digit (cmd : CmdWord) : rsvField cmd = cmd.toNat / 512 % 128 := by
  simp [rsvField, BitVec.extractLsb'_toNat, Nat.shiftRight_eq_div_pow]

theorem cntField_eq_digit (cmd : CmdWord) : cntField cmd = cmd.toNat / 65536 % 256 := by
  simp [cntField, BitVec.extractLsb'_toNat, Nat.shiftRight_eq_div_pow]

theorem toNat_tlenField (cmd : CmdWord) : (tlenField cmd).toNat = cmd.toNat / 16777216 := by
  have := cmd.isLt
  simp [tlenField, BitVec.extractLsb'_toNat, Nat.shiftRight_eq_div_pow]
  omega

theorem opField_lt (cmd : CmdWord) : opField cmd < 16 := by rw [opField_eq_mod]; omega

theorem plenField_lt (cmd : CmdWord) : plenField cmd < 32 := by rw [plenField_eq_digit]; omega

theorem cntField_lt (cmd : CmdWord) : cntField cmd < 256 := by rw [cntField_eq_digit]; omega

/-- The selector bits CMD[17:16] are the low two bits of CNT (30_encoding.md R62). -/
theorem selBits_toNat (cmd : CmdWord) : (cmd.extractLsb' 16 2).toNat = cntField cmd % 4 := by
  rw [cntField_eq_digit]
  simp [BitVec.extractLsb'_toNat, Nat.shiftRight_eq_div_pow]

/-- The bits CMD[23:18] are zero exactly when CNT is below 4 (30_encoding.md R63). -/
theorem cntHighBits_eq_zero_iff (cmd : CmdWord) : cmd.extractLsb' 18 6 = 0#6 ↔ cntField cmd < 4 := by
  rw [← BitVec.toNat_inj, cntField_eq_digit]
  simp [BitVec.extractLsb'_toNat, Nat.shiftRight_eq_div_pow]
  omega

/-! ## Packed words -/

theorem toNat_packCmd (tlen : Byte) (cnt plen op : Nat) :
    (packCmd tlen cnt plen op).toNat =
      op % 16 + 16 * (plen % 32) + 65536 * (cnt % 256) + 16777216 * tlen.toNat := by
  have shift : ∀ a b n : Nat, b < 2 ^ n → a <<< n ||| b = a * 2 ^ n + b := by
    intro a b n hb
    rw [← Nat.shiftLeft_add_eq_or_of_lt hb, Nat.shiftLeft_eq]
  simp only [packCmd, BitVec.toNat_append, BitVec.toNat_ofNat]
  rw [shift _ _ 4 (by omega), shift _ _ 5 (by omega), shift _ _ 7 (by omega),
    shift _ _ 8 (by omega)]
  omega

@[simp] theorem opField_packCmd (tlen : Byte) (cnt plen op : Nat) :
    opField (packCmd tlen cnt plen op) = op % 16 := by
  rw [opField_eq_mod, toNat_packCmd]; omega

@[simp] theorem plenField_packCmd (tlen : Byte) (cnt plen op : Nat) :
    plenField (packCmd tlen cnt plen op) = plen % 32 := by
  rw [plenField_eq_digit, toNat_packCmd]; omega

@[simp] theorem rsvField_packCmd (tlen : Byte) (cnt plen op : Nat) :
    rsvField (packCmd tlen cnt plen op) = 0 := by
  rw [rsvField_eq_digit, toNat_packCmd]; omega

@[simp] theorem cntField_packCmd (tlen : Byte) (cnt plen op : Nat) :
    cntField (packCmd tlen cnt plen op) = cnt % 256 := by
  rw [cntField_eq_digit, toNat_packCmd]; omega

@[simp] theorem tlenField_packCmd (tlen : Byte) (cnt plen op : Nat) :
    tlenField (packCmd tlen cnt plen op) = tlen := by
  apply BitVec.eq_of_toNat_eq
  rw [toNat_tlenField, toNat_packCmd]; omega

/-- A word whose RSV is 0 is packed from its own fields (30_encoding.md R61). -/
theorem packCmd_fields (cmd : CmdWord) (h : rsvField cmd = 0) :
    packCmd (tlenField cmd) (cntField cmd) (plenField cmd) (opField cmd) = cmd := by
  apply BitVec.eq_of_toNat_eq
  have := cmd.isLt
  rw [rsvField_eq_digit] at h
  rw [toNat_packCmd, toNat_tlenField, cntField_eq_digit, plenField_eq_digit, opField_eq_mod]
  omega

/-! ## Opcodes and selectors -/

theorem Opcode.ofCode_code (op : Opcode) : Opcode.ofCode op.code = some op := by cases op <;> rfl

theorem Opcode.ofCode_eq_some_iff (k : Nat) (op : Opcode) :
    Opcode.ofCode k = some op ↔ k = op.code := by
  constructor
  · intro h
    unfold Opcode.ofCode at h
    split at h <;> cases h <;> rfl
  · rintro rfl
    exact op.ofCode_code

theorem Opcode.ofCode_eq_none_iff (k : Nat) : Opcode.ofCode k = none ↔ k = 0 ∨ 10 ≤ k := by
  constructor
  · intro h
    by_contra hk
    have : k = 1 ∨ k = 2 ∨ k = 3 ∨ k = 4 ∨ k = 5 ∨ k = 6 ∨ k = 7 ∨ k = 8 ∨ k = 9 := by omega
    rcases this with rfl | rfl | rfl | rfl | rfl | rfl | rfl | rfl | rfl <;> cases h
  · intro h
    cases hk : Opcode.ofCode k with
    | none => rfl
    | some op =>
      rw [Opcode.ofCode_eq_some_iff] at hk
      cases op <;> simp [Opcode.code] at hk <;> omega

theorem VReg.ofCnt_index (r : VReg) : VReg.ofCnt r.index = some r := by cases r <;> rfl

theorem VReg.ofCnt_eq_some_iff (k : Nat) (r : VReg) : VReg.ofCnt k = some r ↔ k = r.index := by
  constructor
  · intro h
    unfold VReg.ofCnt at h
    split at h <;> cases h <;> rfl
  · rintro rfl
    exact r.ofCnt_index

theorem VReg.ofCnt_eq_none_iff (k : Nat) : VReg.ofCnt k = none ↔ 4 ≤ k := by
  constructor
  · intro h
    by_contra hk
    have : k = 0 ∨ k = 1 ∨ k = 2 ∨ k = 3 := by omega
    rcases this with rfl | rfl | rfl | rfl <;> cases h
  · intro h
    cases hk : VReg.ofCnt k with
    | none => rfl
    | some r =>
      rw [VReg.ofCnt_eq_some_iff] at hk
      cases r <;> simp [VReg.index] at hk <;> omega

theorem VReg.index_lt (r : VReg) : r.index < 4 := by cases r <;> decide

/-! ## What the decoder does -/

/-- The operands of an instruction keep the command of the word they were read from. -/
theorem opcode_of_decodeOperands {op : Opcode} {cmd : CmdWord} {p : Payload} {i : Instr}
    (h : decodeOperands op cmd p = .ok i) : i.opcode = op := by
  cases op <;> simp only [decodeOperands] at h <;> (repeat' split at h) <;> cases h <;> rfl

/-- A word decodes to an instruction exactly when OP names its command, RSV is 0 and the operands
decode to it. -/
theorem decode_eq_ok_iff (cmd : CmdWord) (p : Payload) (i : Instr) :
    decode cmd p = .ok i ↔
      opField cmd = i.opcode.code ∧ rsvField cmd = 0 ∧ decodeOperands i.opcode cmd p = .ok i := by
  unfold decode
  constructor
  · intro h
    split at h
    · cases h
    · rename_i op hop
      split at h
      · rename_i hr
        have ho := opcode_of_decodeOperands h
        subst ho
        exact ⟨(Opcode.ofCode_eq_some_iff _ _).1 hop, hr, h⟩
      · cases h
  · rintro ⟨ho, hr, h⟩
    rw [(Opcode.ofCode_eq_some_iff _ _).2 ho]
    simp [hr, h]

/-- Decoding a word whose OP names `op`. -/
theorem decode_of_opField {cmd : CmdWord} {op : Opcode} (h : opField cmd = op.code) (p : Payload) :
    decode cmd p = if rsvField cmd = 0 then decodeOperands op cmd p else .error .reservedBits := by
  unfold decode
  rw [(Opcode.ofCode_eq_some_iff _ _).2 h]

end Sys2Proof
end

