-- ==== Sys2Proof/Laws/Operands.lean ====
section
/-! SUPPORT. The little-endian decode has no carry: the sum of the bytes' weights fits 64 bits. -/

namespace Sys2Proof.Machine

/-- The sum that `le64` narrows is below 2^64, so nothing is lost (20_memory.md R42). -/
theorem le64_sum_lt (b : Vector Byte 8) :
    b[0].toNat + b[1].toNat * 2 ^ 8 + b[2].toNat * 2 ^ 16 + b[3].toNat * 2 ^ 24
      + b[4].toNat * 2 ^ 32 + b[5].toNat * 2 ^ 40 + b[6].toNat * 2 ^ 48 + b[7].toNat * 2 ^ 56
      < 2 ^ 64 := by
  have h0 := b[0].isLt
  have h1 := b[1].isLt
  have h2 := b[2].isLt
  have h3 := b[3].isLt
  have h4 := b[4].isLt
  have h5 := b[5].isLt
  have h6 := b[6].isLt
  have h7 := b[7].isLt
  omega

/-- Payloads that agree on P[0..7] have the same low word. -/
theorem lowWord_congr {p q : Payload} (h : ∀ k, k < 8 → p[k]? = q[k]?) : lowWord p = lowWord q := by
  have e : ∀ (k : Nat) (hk : k < 8), p[k]'(by omega) = q[k]'(by omega) := by
    intro k hk
    have := h k hk
    simpa [Vector.getElem?_eq_getElem (show k < 16 by omega)] using this
  simp only [lowWord, payloadLow]
  rw [e 0, e 1, e 2, e 3, e 4, e 5, e 6, e 7] <;> decide

/-- Payloads that agree on P[0..plen-1] have the same final block (42_absorb.md R132). -/
theorem finalWord_congr {p q : Payload} {plen : Nat} (h : ∀ k, k < plen → p[k]? = q[k]?)
    (tlen : Byte) : finalWord p plen tlen = finalWord q plen tlen := by
  have e : ∀ i : Fin 7, remainderByte p plen i = remainderByte q plen i := by
    intro i
    unfold remainderByte
    split
    · rename_i hi
      have := h i.val hi
      simpa [Vector.getElem?_eq_getElem (show i.val < 16 by omega)] using this
    · rfl
  simp only [finalWord, finalBlock, e]

end Sys2Proof.Machine
end

