-- ==== Sys2Proof/Laws/State.lean ====
section
/-! SUPPORT. One lemma per field per update of State, each true by rfl. -/

namespace Sys2Proof.Machine

variable (s : State) (S : SipState) (r : VReg) (x : Word) (n w : Nat)

/-! ## loadWords -/

@[simp] theorem State.loadWords_v0 : (s.loadWords S).v0 = some S.v0 := rfl
@[simp] theorem State.loadWords_v1 : (s.loadWords S).v1 = some S.v1 := rfl
@[simp] theorem State.loadWords_v2 : (s.loadWords S).v2 = some S.v2 := rfl
@[simp] theorem State.loadWords_v3 : (s.loadWords S).v3 = some S.v3 := rfl
@[simp] theorem State.loadWords_err : (s.loadWords S).err = s.err := rfl
@[simp] theorem State.loadWords_sticky : (s.loadWords S).sticky = s.sticky := rfl
@[simp] theorem State.loadWords_result : (s.loadWords S).result = s.result := rfl
@[simp] theorem State.loadWords_accelActive : (s.loadWords S).accelActive = s.accelActive := rfl
@[simp] theorem State.loadWords_response : (s.loadWords S).response = s.response := rfl
@[simp] theorem State.loadWords_pending : (s.loadWords S).pending = s.pending := rfl

/-! ## dropWords -/

@[simp] theorem State.dropWords_v0 : s.dropWords.v0 = none := rfl
@[simp] theorem State.dropWords_v1 : s.dropWords.v1 = none := rfl
@[simp] theorem State.dropWords_v2 : s.dropWords.v2 = none := rfl
@[simp] theorem State.dropWords_v3 : s.dropWords.v3 = none := rfl
@[simp] theorem State.dropWords_err : s.dropWords.err = s.err := rfl
@[simp] theorem State.dropWords_sticky : s.dropWords.sticky = s.sticky := rfl
@[simp] theorem State.dropWords_result : s.dropWords.result = s.result := rfl
@[simp] theorem State.dropWords_accelActive : s.dropWords.accelActive = s.accelActive := rfl
@[simp] theorem State.dropWords_response : s.dropWords.response = s.response := rfl
@[simp] theorem State.dropWords_pending : s.dropWords.pending = s.pending := rfl

/-! ## writeV -/

@[simp] theorem State.readV_writeV_same : (s.writeV r x).readV r = some x := by cases r <;> rfl

theorem State.readV_writeV_other (q : VReg) (h : q ≠ r) : (s.writeV r x).readV q = s.readV q := by
  cases r <;> cases q <;> first | rfl | exact absurd rfl h

@[simp] theorem State.writeV_err : (s.writeV r x).err = s.err := by cases r <;> rfl
@[simp] theorem State.writeV_sticky : (s.writeV r x).sticky = s.sticky := by cases r <;> rfl
@[simp] theorem State.writeV_result : (s.writeV r x).result = s.result := by cases r <;> rfl
@[simp] theorem State.writeV_accelActive : (s.writeV r x).accelActive = s.accelActive := by
  cases r <;> rfl
@[simp] theorem State.writeV_response : (s.writeV r x).response = s.response := by cases r <;> rfl
@[simp] theorem State.writeV_pending : (s.writeV r x).pending = s.pending := by cases r <;> rfl

/-! ## respond -/

@[simp] theorem State.respond_v0 : s.respond.v0 = s.v0 := rfl
@[simp] theorem State.respond_v1 : s.respond.v1 = s.v1 := rfl
@[simp] theorem State.respond_v2 : s.respond.v2 = s.v2 := rfl
@[simp] theorem State.respond_v3 : s.respond.v3 = s.v3 := rfl
@[simp] theorem State.respond_err : s.respond.err = s.err := rfl
@[simp] theorem State.respond_sticky : s.respond.sticky = s.sticky := rfl
@[simp] theorem State.respond_result : s.respond.result = s.result := rfl
@[simp] theorem State.respond_accelActive : s.respond.accelActive = s.accelActive := rfl
@[simp] theorem State.respond_pending : s.respond.pending = s.pending := rfl
@[simp] theorem State.respond_currentResponse : s.respond.currentResponse = s.currentResponse := rfl

/-- After `respond` the port shows the response of the present state. -/
@[simp] theorem State.respond_response : s.respond.response = some s.respond.currentResponse := rfl

/-! ## complete -/

variable (q : Option Word)

@[simp] theorem complete_v0 : (complete q s).v0 = s.v0 := rfl
@[simp] theorem complete_v1 : (complete q s).v1 = s.v1 := rfl
@[simp] theorem complete_v2 : (complete q s).v2 = s.v2 := rfl
@[simp] theorem complete_v3 : (complete q s).v3 = s.v3 := rfl
@[simp] theorem complete_err : (complete q s).err = .ok := rfl
@[simp] theorem complete_sticky : (complete q s).sticky = s.sticky := rfl
@[simp] theorem complete_result : (complete q s).result = q := rfl
@[simp] theorem complete_accelActive : (complete q s).accelActive = s.accelActive := rfl
@[simp] theorem complete_response :
    (complete q s).response = some (complete q s).currentResponse := rfl
@[simp] theorem complete_pending : (complete q s).pending = s.pending := rfl

/-! ## raise -/

variable (e : ErrCode)

@[simp] theorem raise_v0 : (raise e s).v0 = if e.aborts then none else s.v0 := by cases e <;> rfl
@[simp] theorem raise_v1 : (raise e s).v1 = if e.aborts then none else s.v1 := by cases e <;> rfl
@[simp] theorem raise_v2 : (raise e s).v2 = if e.aborts then none else s.v2 := by cases e <;> rfl
@[simp] theorem raise_v3 : (raise e s).v3 = if e.aborts then none else s.v3 := by cases e <;> rfl
@[simp] theorem raise_err : (raise e s).err = e := rfl
@[simp] theorem raise_sticky : (raise e s).sticky = true := rfl
@[simp] theorem raise_result : (raise e s).result = none := rfl
@[simp] theorem raise_accelActive : (raise e s).accelActive = s.accelActive := by cases e <;> rfl
@[simp] theorem raise_response : (raise e s).response = some (raise e s).currentResponse := rfl
@[simp] theorem raise_pending : (raise e s).pending = s.pending := by cases e <;> rfl

/-! ## resetCore -/

@[simp] theorem State.resetCore_v0 : s.resetCore.v0 = none := rfl
@[simp] theorem State.resetCore_v1 : s.resetCore.v1 = none := rfl
@[simp] theorem State.resetCore_v2 : s.resetCore.v2 = none := rfl
@[simp] theorem State.resetCore_v3 : s.resetCore.v3 = none := rfl
@[simp] theorem State.resetCore_err : s.resetCore.err = .ok := rfl
@[simp] theorem State.resetCore_sticky : s.resetCore.sticky = false := rfl
@[simp] theorem State.resetCore_result : s.resetCore.result = none := rfl
@[simp] theorem State.resetCore_accelActive : s.resetCore.accelActive = s.accelActive := rfl
@[simp] theorem State.resetCore_response : s.resetCore.response = none := rfl
@[simp] theorem State.resetCore_pending : s.resetCore.pending = s.pending := rfl

/-! ## withFetchWord -/

@[simp] theorem State.withFetchWord_pending : (s.withFetchWord n w).pending =
    .command (commandOfBits n w).1 (commandOfBits n w).2 :: s.pending := rfl

end Sys2Proof.Machine
end

