-- ==== Sys2Proof/Laws/Ops.lean ====
section
/-! SUPPORT. One lemma for each shared operation that says what it can do. -/

namespace Sys2Proof.Machine

/-! ## The state words -/

/-- The four words are a state value exactly when each holds one. -/
theorem State.words_eq_some_iff (s : State) (S : SipState) :
    s.words = some S ↔
      s.v0 = some S.v0 ∧ s.v1 = some S.v1 ∧ s.v2 = some S.v2 ∧ s.v3 = some S.v3 := by
  obtain ⟨a, b, c, d⟩ := S
  unfold State.words
  constructor
  · intro h
    split at h
    · cases h
      simp_all
    · cases h
  · rintro ⟨h0, h1, h2, h3⟩
    simp [h0, h1, h2, h3]

/-- VALID is 1111 exactly when the state value is there (10_state.md R25). -/
theorem State.valid_eq_ones_iff (s : State) : s.valid = 0b1111#4 ↔ s.words.isSome = true := by
  unfold State.valid State.words
  cases s.v0 <;> cases s.v1 <;> cases s.v2 <;> cases s.v3 <;> simp

theorem State.words_eq_none_iff (s : State) : s.words = none ↔ s.valid ≠ 0b1111#4 := by
  rw [ne_eq, State.valid_eq_ones_iff]
  cases s.words <;> simp

/-- VALID depends on which words hold values and on nothing else. -/
theorem State.valid_congr {s t : State} (h0 : t.v0 = s.v0) (h1 : t.v1 = s.v1) (h2 : t.v2 = s.v2)
    (h3 : t.v3 = s.v3) : t.valid = s.valid := by
  simp only [State.valid, h0, h1, h2, h3]

@[simp] theorem State.valid_loadWords (s : State) (S : SipState) :
    (s.loadWords S).valid = 0b1111#4 := by simp [State.valid]

@[simp] theorem State.valid_dropWords (s : State) : s.dropWords.valid = 0b0000#4 := by
  simp [State.valid]

@[simp] theorem State.valid_complete (r : Option Word) (s : State) :
    (complete r s).valid = s.valid := rfl

@[simp] theorem State.valid_raise (e : ErrCode) (s : State) :
    (raise e s).valid = if e.aborts then 0b0000#4 else s.valid := by
  cases e <;> simp [State.valid, ErrCode.aborts]

/-- Storing back what is there changes nothing. -/
theorem State.loadWords_of_words {s : State} {S : SipState} (h : s.words = some S) :
    s.loadWords S = s := by
  rw [State.words_eq_some_iff] at h
  obtain ⟨h0, h1, h2, h3⟩ := h
  simp only [State.loadWords, ← h0, ← h1, ← h2, ← h3]

/-! ## withWords -/

/-- What a command that needs the whole state can do. -/
theorem withWords_cases (s : State) (k : SipState → State) :
    (∃ S, s.words = some S ∧ withWords s k = k S) ∨
      (s.words = none ∧ withWords s k = raise .stateNotInitialized s) := by
  unfold withWords
  cases h : s.words with
  | none => exact .inr ⟨rfl, rfl⟩
  | some S => exact .inl ⟨S, rfl, rfl⟩

theorem withWords_of_some {s : State} {S : SipState} (h : s.words = some S) (k : SipState → State) :
    withWords s k = k S := by
  simp [withWords, h]

theorem withWords_of_none {s : State} (h : s.words = none) (k : SipState → State) :
    withWords s k = raise .stateNotInitialized s := by
  simp [withWords, h]

/-! ## The rotation -/

/-- In its domain `rotl64` is the rotation of 64-bit words (44_rotate.md R160). -/
theorem rotl64_eq_rotateLeft (x : Word) (s : Nat) (h : 0 < s) (h' : s < 64) :
    rotl64 x s = x.rotateLeft s := by
  apply BitVec.eq_of_getLsbD_eq
  intro i hi
  have hm : (0xffffffffffffffff : Nat) = 2 ^ 64 - 1 := rfl
  simp only [rotl64, hm, BitVec.getLsbD_ofNat, Nat.testBit_or, Nat.testBit_and,
    Nat.testBit_shiftLeft, Nat.testBit_shiftRight, Nat.testBit_two_pow_sub_one,
    BitVec.getLsbD_rotateLeft, Nat.mod_eq_of_lt h']
  by_cases hs : i < s
  · simp [hi, hs, BitVec.getLsbD]
  · have high : x.toNat.testBit (64 - s + i) = false :=
      Nat.testBit_lt_two_pow (Nat.lt_of_lt_of_le x.isLt (Nat.pow_le_pow_right (by omega) (by omega)))
    simp [hi, hs, high, BitVec.getLsbD]
    omega

/-! ## Compress -/

/-- The first round taken off the front instead of the back (41_sipround.md R113). -/
theorem compress_succ_front (S : SipState) (n : Nat) :
    compress S (n + 1) = compress (sipRound S) n := by
  induction n with
  | zero => rfl
  | succ n ih => exact congrArg sipRound ih

end Sys2Proof.Machine
end

