-- ==== Sys2Proof/Laws/PerInstr.lean ====
section
/-! SUPPORT. A statement about every instruction as syntax, one lemma for each constructor. -/

namespace Sys2Proof.Laws.EncodedFields

/-- The encoded word has the instruction's opcode in OP, 0 in RSV, and carries the instruction's
payload (30_encoding.md R61, R66, R67). -/
def Statement (i : Instr) : Prop :=
  opField (encode i).1 = i.opcode.code ∧ rsvField (encode i).1 = 0 ∧
    ∀ p, i.payload? = some p → (encode i).2 = p

theorem init (plen : Nat) (p : Payload) : Statement (.init plen p) := by
  simp [Statement, encode, Instr.opcode, Opcode.code, Instr.payload?]

theorem absorb (plen c : Nat) (p : Payload) : Statement (.absorb plen c p) := by
  simp [Statement, encode, Instr.opcode, Opcode.code, Instr.payload?]

theorem absorbLast (plen c : Nat) (tlen : Byte) (p : Payload) :
    Statement (.absorbLast plen c tlen p) := by
  simp [Statement, encode, Instr.opcode, Opcode.code, Instr.payload?]

theorem compress (n : Nat) : Statement (.compress n) := by
  simp [Statement, encode, Instr.opcode, Opcode.code, Instr.payload?]

theorem finalize (d : Nat) : Statement (.finalize d) := by
  simp [Statement, encode, Instr.opcode, Opcode.code, Instr.payload?]

theorem rotl (plen amount : Nat) (p : Payload) : Statement (.rotl plen amount p) := by
  simp [Statement, encode, Instr.opcode, Opcode.code, Instr.payload?]

theorem accelQuery : Statement .accelQuery := by
  simp [Statement, encode, Instr.opcode, Opcode.code, Instr.payload?]

theorem stateRead (sel : VReg) : Statement (.stateRead sel) := by
  simp [Statement, encode, Instr.opcode, Opcode.code, Instr.payload?]

theorem stateWrite (plen : Nat) (sel : VReg) (p : Payload) : Statement (.stateWrite plen sel p) := by
  simp [Statement, encode, Instr.opcode, Opcode.code, Instr.payload?]

end Sys2Proof.Laws.EncodedFields
end

