-- ==== Sys2Proof/Laws/Step.lean ====
section
/-! SUPPORT. What a command and a step can do, said once: every instruction either raises one of its
errors or completes, and every step does nothing, runs a command, or resets. -/

namespace Sys2Proof.Machine

/-- Every instruction answers a next state: it raises an error and nothing else, or it completes on a
state that differs from the one before in its words alone. -/
theorem exec_cases (i : Instr) (s : State) :
    (∃ e, e ≠ .ok ∧ exec i s = .next (raise e s)) ∨
      (∃ r S, exec i s = .next (complete r (s.loadWords S))) ∨
      (∃ r x, exec i s = .next (complete none (s.writeV r x))) ∨
      (∃ x, exec i s = .next (complete (some x) s)) := by
  cases i with
  | init plen p =>
    simp only [exec, execInit]
    split
    · exact .inr (.inl ⟨_, _, rfl⟩)
    · exact .inl ⟨_, by decide, rfl⟩
  | absorb plen c p =>
    simp only [exec, execAbsorb]
    split
    · obtain ⟨S, -, h⟩ | ⟨-, h⟩ := withWords_cases s
        fun S => complete none (s.loadWords (absorb S (lowWord p) c))
      · rw [h]; exact .inr (.inl ⟨_, _, rfl⟩)
      · rw [h]; exact .inl ⟨_, by decide, rfl⟩
    · exact .inl ⟨_, by decide, rfl⟩
  | absorbLast plen c tlen p =>
    simp only [exec, execAbsorbLast]
    split
    · obtain ⟨S, -, h⟩ | ⟨-, h⟩ := withWords_cases s
        fun S => complete none (s.loadWords (absorb S (finalWord p plen tlen) c))
      · rw [h]; exact .inr (.inl ⟨_, _, rfl⟩)
      · rw [h]; exact .inl ⟨_, by decide, rfl⟩
    · exact .inl ⟨_, by decide, rfl⟩
  | compress n =>
    simp only [exec, execCompress]
    obtain ⟨S, -, h⟩ | ⟨-, h⟩ := withWords_cases s
      fun S => complete none (s.loadWords (compress S n))
    · rw [h]; exact .inr (.inl ⟨_, _, rfl⟩)
    · rw [h]; exact .inl ⟨_, by decide, rfl⟩
  | finalize d =>
    simp only [exec, execFinalize]
    obtain ⟨S, -, h⟩ | ⟨-, h⟩ := withWords_cases s fun S => complete (some (finalize S d)) s
    · rw [h]; exact .inr (.inr (.inr ⟨_, rfl⟩))
    · rw [h]; exact .inl ⟨_, by decide, rfl⟩
  | rotl plen amount p =>
    simp only [exec, execRotl]
    split
    · exact .inl ⟨_, by decide, rfl⟩
    · split
      · exact .inl ⟨_, by decide, rfl⟩
      · exact .inr (.inr (.inr ⟨_, rfl⟩))
  | accelQuery => exact .inr (.inr (.inr ⟨_, rfl⟩))
  | stateRead sel =>
    simp only [exec, execStateRead]
    split
    · exact .inr (.inr (.inr ⟨_, rfl⟩))
    · exact .inl ⟨_, by decide, rfl⟩
  | stateWrite plen sel p =>
    simp only [exec, execStateWrite]
    split
    · exact .inr (.inr (.inl ⟨_, _, rfl⟩))
    · exact .inl ⟨_, by decide, rfl⟩

/-- A command runs the instruction its words stand for, or raises IllegalCommand (30_encoding.md R68,
R73). -/
theorem runCommand_cases (cmd : CmdWord) (p : Payload) (s : State) :
    (∃ i, decode cmd p = .ok i ∧ runCommand cmd p s = exec i s) ∨
      (∃ d, decode cmd p = .error d ∧ runCommand cmd p s = .next (raise .illegalCommand s)) := by
  unfold runCommand
  cases h : decode cmd p with
  | ok i => exact .inl ⟨i, rfl, rfl⟩
  | error d => exact .inr ⟨d, rfl, rfl⟩

/-- A step with no input holds the state; one with an input runs it. -/
theorem step_cases (s : State) :
    (s.pending = [] ∧ step s = .next s) ∨
      (∃ input rest, s.pending = input :: rest ∧
        step s = runInput input { s with pending := rest }) := by
  unfold step
  split
  · exact .inl ⟨by assumption, rfl⟩
  · exact .inr ⟨_, _, by assumption, rfl⟩

/-- A step whose next input is a command runs it on the state without it. -/
theorem step_of_command {s : State} {cmd : CmdWord} {p : Payload} {rest : List HostInput}
    (h : s.pending = .command cmd p :: rest) :
    step s = runCommand cmd p { s with pending := rest } := by
  simp [step, h, runInput]

end Sys2Proof.Machine
end

