-- ==== Sys2Proof/Tests/Slice0.lean ====
section
/-! SUPPORT. The model's own tests. Expected values are those of spec/95_test_vectors.md and of the
examples in the numbered rules, or are worked by hand from the encodings; each test names its source.
The second part gives, for every statement with hypotheses, a state and operands that meet them. -/

namespace Sys2Proof.Tests

open Sys2Proof.Machine Sys2Proof.Spec

/-! ## Helpers -/

/-- The next state of an outcome. -/
def after (o : Host.Outcome State Fault Refusal) : Option State :=
  match o with
  | .next s => some s
  | .fault _ => none
  | .refused _ => none

/-- STATUS and RESULT of the response of a next state. -/
def answer (o : Host.Outcome State Fault Refusal) : Option (BitVec 32 × Option Word) :=
  (after o).bind fun s => s.response.map fun r => (r.status, r.result)

/-- The state value of a next state. -/
def wordsAfter (o : Host.Outcome State Fault Refusal) : Option SipState :=
  (after o).bind State.words

/-- A core after reset with ACCEL_ACTIVE false. -/
def empty : State := { State.reset with accelActive := false }

/-- A core that holds the given state value. -/
def holding (a b c d : Word) : State := loaded a b c d empty

/-- The state of `init [00 .. 0f]` (40_init.md R101, example). -/
def keyed : State :=
  holding 0x7469686173716475#64 0x6b617f6d656e6665#64 0x6b7f62616d677361#64 0x7b6b696e727e6c7b#64

/-- The payload [00 .. 0f]. -/
def counting : Payload := #v[0, 1, 2, 3, 4, 5, 6, 7, 8, 9, 10, 11, 12, 13, 14, 15]

/-- The state with one command as the host's next input. -/
def given (s : State) (cmd : CmdWord) (p : Payload) : State := { s with pending := [.command cmd p] }

/-! ## Well-formedness: each check refuses an ill-formed term -/

theorem test_wf_init_plen : (Instr.init 32 counting).wellFormed = false := by decide
theorem test_wf_absorb_plen : (Instr.absorb 32 2 counting).wellFormed = false := by decide
theorem test_wf_absorb_cnt : (Instr.absorb 8 256 counting).wellFormed = false := by decide
theorem test_wf_absorbLast_plen : (Instr.absorbLast 32 2 0 counting).wellFormed = false := by decide
theorem test_wf_absorbLast_cnt : (Instr.absorbLast 7 256 0 counting).wellFormed = false := by decide
theorem test_wf_compress_cnt : (Instr.compress 256).wellFormed = false := by decide
theorem test_wf_finalize_cnt : (Instr.finalize 256).wellFormed = false := by decide
theorem test_wf_rotl_plen : (Instr.rotl 32 1 counting).wellFormed = false := by decide
theorem test_wf_rotl_cnt : (Instr.rotl 8 256 counting).wellFormed = false := by decide
theorem test_wf_stateWrite_plen : (Instr.stateWrite 32 .v0 counting).wellFormed = false := by decide
theorem test_wf_accepts_bounds : (Instr.absorbLast 31 255 255 counting).wellFormed = true := by decide

/-! ## Decoding: each command's word, written out bit by bit from 30_encoding.md R61
(TLEN, CNT, RSV, PLEN, OP) -/

theorem test_decode_init : decode 0b00000000_00000000_0000000_10000_0001#32 counting
    = .ok (.init 16 counting) := by decide
theorem test_decode_absorb : decode 0b00000000_00000010_0000000_01000_0010#32 counting
    = .ok (.absorb 8 2 counting) := by decide
theorem test_decode_absorbLast : decode 0b00001111_00000010_0000000_00111_0011#32 counting
    = .ok (.absorbLast 7 2 15 counting) := by decide
theorem test_decode_compress : decode 0b00000000_11111111_0000000_00000_0100#32 counting
    = .ok (.compress 255) := by decide
theorem test_decode_finalize : decode 0b00000000_00000100_0000000_00000_0101#32 counting
    = .ok (.finalize 4) := by decide
theorem test_decode_rotl : decode 0b00000000_00001101_0000000_01000_0110#32 counting
    = .ok (.rotl 8 13 counting) := by decide
theorem test_decode_accelQuery : decode 0b00000000_00000000_0000000_00000_0111#32 counting
    = .ok .accelQuery := by decide
theorem test_decode_stateRead : decode 0b00000000_00000011_0000000_00000_1000#32 counting
    = .ok (.stateRead .v3) := by decide
theorem test_decode_stateWrite : decode 0b00000000_00000010_0000000_01000_1001#32 counting
    = .ok (.stateWrite 8 .v2 counting) := by decide

/-- 30_encoding.md R62: the selectors of V0 and V1. -/
theorem test_decode_selectors :
    decode 0b00000000_00000000_0000000_00000_1000#32 counting = .ok (.stateRead .v0) ∧
    decode 0b00000000_00000001_0000000_01000_1001#32 counting = .ok (.stateWrite 8 .v1 counting) := by
  decide

/-! 95_test_vectors.md section 2.9 and 30_encoding.md R68: rejected words, by the check that fails. -/

theorem test_decode_opcode0 : decode 0x00000000#32 counting = .error .illegalOpcode := by decide
theorem test_decode_opcodeA : decode 0x0000000a#32 counting = .error .illegalOpcode := by decide
theorem test_decode_rsv : decode 0x00010204#32 counting = .error .reservedBits := by decide
theorem test_decode_unused_plen : decode 0x00010014#32 counting = .error .unusedField := by decide
theorem test_decode_unused_cnt : decode 0x00040008#32 counting = .error .unusedField := by decide
theorem test_decode_unused_tlen : decode 0x01030089#32 counting = .error .unusedField := by decide

/-- The numbering of the opcode table: bits 32 to 39 are P[0] (log entry 6). -/
theorem test_decode_table_word : decodeTableWord 40 0xab00000101
    = some (.init 16 #v[0xab, 0, 0, 0, 0, 0, 0, 0, 0, 0, 0, 0, 0, 0, 0, 0]) := by decide

/-- The next step after placing a word runs it: `accel_query` from reset. -/
theorem test_fetch_word : answer (step (empty.withFetchWord 32 0x00000007))
    = some (0x00001000#32, some 0#64) := by decide

/-! ## The commands (95_test_vectors.md section 2; at most two tests each) -/

/-- Section 2.1, key [00 .. 0f]. -/
theorem test_init_key : wordsAfter (exec (.init 16 counting) empty)
    = some ⟨0x7469686173716475#64, 0x6b617f6d656e6665#64, 0x6b7f62616d677361#64,
        0x7b6b696e727e6c7b#64⟩ := by decide

/-- Section 2.1: PLEN 15 aborts, STATUS 0x00000011. -/
theorem test_init_length : answer (exec (.init 15 counting) keyed)
    = some (0x00000011#32, none) := by decide

/-- Section 2.4, c = 2. -/
theorem test_absorb_two_rounds : wordsAfter (exec (.absorb 8 2 counting) keyed)
    = some ⟨0x4a017198de0a59e0#64, 0x0d52f6f62a4f59a4#64, 0x634cb3577b01fd3d#64,
        0xa5224d6f55c7d9c8#64⟩ := by decide +kernel

/-- Section 2.4: the length is checked before the state. -/
theorem test_absorb_length_first : answer (exec (.absorb 7 2 counting) empty)
    = some (0x00000012#32, none) := by decide

/-- Section 2.5, c = 0, three bytes: the bytes from PLEN on are not read. -/
theorem test_absorbLast_padding : wordsAfter (exec (.absorbLast 3 0 3
      #v[0xaa, 0xbb, 0xcc, 0xff, 0xff, 0xff, 0xff, 0xff, 0, 0, 0, 0, 0, 0, 0, 0]) keyed)
    = some ⟨0x7769686173bddfdf#64, 0x6b617f6d656e6665#64, 0x6b7f62616d677361#64,
        0x786b696e72b2d7d1#64⟩ := by decide

/-- Section 2.5, c = 2, TLEN = 8, no bytes. -/
theorem test_absorbLast_empty : wordsAfter (exec (.absorbLast 0 2 8 counting) keyed)
    = some ⟨0x351377d69adca0b6#64, 0x804235154101e92b#64, 0x2fb7329f0826831e#64,
        0x538563ad38110211#64⟩ := by decide +kernel

/-- Section 2.2, (0, 0, 0, 1): each amount shows. -/
theorem test_compress_unit : wordsAfter (exec (.compress 1) (holding 0 0 0 1))
    = some ⟨0x0000000000010001#64, 0x0000000000000001#64, 0x0000000100000000#64,
        0x0000002000210001#64⟩ := by decide +kernel

/-- Section 2.3: n = 0 needs a valid state too. -/
theorem test_compress_needs_state : answer (exec (.compress 0) empty)
    = some (0x00000016#32, none) := by decide

/-- Section 2.6, d = 4. -/
theorem test_finalize_digest : answer (exec (.finalize 4) (holding 0x3c85b3ab6f55be51#64
      0x414fc3fb98efe374#64 0xccf13ea527b9f4bd#64 0x5293f5da84008f82#64))
    = some (0x00001f00#32, some 0xa129ca6149be45e5#64) := by decide +kernel

/-- Section 2.6, d = 0: the state is kept. -/
theorem test_finalize_keeps_state : wordsAfter (exec (.finalize 0) keyed) = keyed.words := by
  decide

/-- Section 2.7: 0x8000000000000001 by 63. -/
theorem test_rotl_63 : answer (exec (.rotl 8 63 #v[1, 0, 0, 0, 0, 0, 0, 0x80, 0, 0, 0, 0, 0, 0, 0, 0])
      empty) = some (0x00001000#32, some 0xc000000000000000#64) := by decide

/-- Section 2.7: PLEN is checked before the amount. -/
theorem test_rotl_length_first : answer (exec (.rotl 4 0 counting) empty)
    = some (0x00000014#32, none) := by decide

/-- Section 2.8, ACCEL_ACTIVE true, from reset. -/
theorem test_accelQuery_true : answer (exec .accelQuery { empty with accelActive := true })
    = some (0x00003000#32, some 1#64) := by decide

/-- Section 2.8, `state_read sel=2`. -/
theorem test_stateRead_word : answer (exec (.stateRead .v2) keyed)
    = some (0x00001f00#32, some 0x6b7f62616d677361#64) := by decide

/-- Section 3, P5b row 4: only the selected word's VALID bit counts. -/
theorem test_stateRead_unwritten : answer (exec (.stateRead .v1) { empty with v2 := some 5#64 })
    = some (0x00000416#32, none) := by decide

/-- Section 2.8: VALID 0100, STATUS 0x00000400. -/
theorem test_stateWrite_one_bit : answer (exec (.stateWrite 8 .v2
      #v[5, 0, 0, 0, 0, 0, 0, 0, 0, 0, 0, 0, 0, 0, 0, 0]) empty) = some (0x00000400#32, none) := by
  decide

/-- Section 3, P5 rows 2 and 3: `state_write` to V0 and then V1, VALID 0001 and 0011. -/
theorem test_stateWrite_order : answer (step (given
      { empty with sticky := true, accelActive := true } 0x00000089#32
      #v[1, 0, 0, 0, 0, 0, 0, 0, 0, 0, 0, 0, 0, 0, 0, 0])) = some (0x00002110#32, none) ∧
    answer (step (given { empty with sticky := true, accelActive := true, v0 := some 1#64 }
      0x00010089#32 zeroPayload)) = some (0x00002310#32, none) := by decide

/-- Section 2.9: an illegal word leaves VALID 1111, STATUS 0x00000f14. -/
theorem test_illegal_keeps_state : answer (step (given keyed 0x01020082#32 counting))
    = some (0x00000f14#32, none) := by decide

/-- 70_reset_and_hazards.md R242: a reset inside a command leaves no trace of it. -/
theorem test_reset_during : after (step { keyed with pending := [.resetDuring 0x00000101#32 counting] })
    = some empty := by decide

/-- 30_encoding.md R70: a mnemonic in upper case, and a value's little-endian bytes. -/
theorem test_assemble_upper : assembleLine "ROTL s=1, 0x8000000000000001"
    = some [(0x00010086#32, #v[1, 0, 0, 0, 0, 0, 0, 0x80, 0, 0, 0, 0, 0, 0, 0, 0])] := by decide +kernel

/-- 30_encoding.md R70: the assembler refuses a selector outside its range. -/
theorem test_assemble_refuses : assembleLine "state_read sel=4" = none := by decide

/-! ## Witnesses: the hypotheses of the statements can be met

One theorem for each statement with hypotheses; a conjunct for each clause that has its own. -/

/-- DecodeInvertsEncode: an instruction at the bounds of its fields. -/
theorem witness_decodeInvertsEncode : (Instr.absorbLast 31 255 255 counting).wellFormed = true := by
  decide

/-- EncodeInvertsDecode: a decodable word whose row carries a payload. -/
theorem witness_encodeInvertsDecode : decode 0x00020082#32 counting = .ok (.absorb 8 2 counting) ∧
    (Instr.absorb 8 2 counting).payload? = some counting := by decide

/-- WordSelectsRowByMaskAndMatch: a row of the table and a word it matches. -/
theorem witness_wordSelectsRow : (⟨.init, 0x00000001#32, 0xFFFFFE0F#32⟩ : OpcodeRow) ∈ opcodeTable ∧
    0x00000101#32 &&& 0xFFFFFE0F#32 = 0x00000001#32 := by decide

/-- IllegalEncodingsRaiseIllegalCommand: an illegal word for each kind of fault in the shape, at the
first values outside the legal ones. -/
theorem witness_illegalEncodings : IllegalWord 0x0000000a#32 ∧ IllegalWord 0x00000201#32 ∧
    IllegalWord 0x01000101#32 ∧ IllegalWord 0x01000082#32 ∧ IllegalWord 0x00000014#32 ∧
    IllegalWord 0x00000015#32 ∧ IllegalWord 0x01010086#32 ∧ IllegalWord 0x00010007#32 ∧
    IllegalWord 0x00040008#32 ∧ IllegalWord 0x00040089#32 ∧
    Next (given keyed 0x0000000a#32 counting) 0x0000000a#32 counting [] := by
  refine ⟨?_, ?_, ?_, ?_, ?_, ?_, ?_, ?_, ?_, ?_, rfl⟩ <;> (unfold IllegalWord; decide)

/-- AssemblerSetsTheFieldsOfEachLine: each range at both its ends, and the first operand outside. -/
theorem witness_assembler : (List.replicate 16 (0 : Byte)).length ≤ 16 ∧
    (List.replicate 7 (0 : Byte)).length ≤ 7 ∧ (List.replicate 8 (0 : Byte)).length ≤ 8 ∧
    AssemblesTo (.absorbLast 255 255 []) 3 0 255 255 zeroPayload ∧
    assemble (.rotl 63 1#64) ≠ none ∧ assemble (.rotl 64 1#64) = none ∧ assemble (.rotl 0 1#64) = none ∧
    assemble (.stateRead 3) ≠ none ∧ assemble (.stateRead 4) = none ∧ assemble (.compress 256) = none ∧
    16 < (List.replicate 17 (0 : Byte)).length := by
  refine ⟨by decide, by decide, by decide, ⟨0xFFFF0003#32, by decide, by decide, by decide, by decide,
    by decide, by decide⟩, ?_⟩
  decide

/-- EveryLineOfAssemblyReadsBack: the text it speaks of is the line as 30_encoding.md R72 writes it. -/
theorem witness_lineText :
    (mnemonicText (.absorbLast 2 15 [0x08#8, 0x9a#8])).toList
      ++ operandText (.absorbLast 2 15 [0x08#8, 0x9a#8])
      = "absorb_last c=2, tlen=15, [08 9a]".toList ∧
    (mnemonicText (.rotl 13 0x0123456789abcdef#64)).toList ++ operandText (.rotl 13 0x0123456789abcdef#64)
      = "rotl s=13, 0x0123456789abcdef".toList := by decide +kernel

/-- AssemblerRefusesTlenAndUnknownMnemonics: a line with `tlen` on `absorb`. -/
theorem witness_tlenRefused :
    lexFrom [] "absorb c=2, tlen=8, []".toList = .word "absorb".toList ::
      [.word ['c'], .equals, .word ['2'], .comma, .word "tlen".toList, .equals, .word ['8'], .comma,
        .open, .close] ∧
    "absorb".toList ≠ "absorb_last".toList ∧ "absorb".toList ≠ "ABSORB_LAST".toList := by
  decide +kernel

/-- AssemblerRefusesTlenAndUnknownMnemonics: a line whose first word is no mnemonic, for it is written
in both cases. -/
theorem witness_unknownMnemonic : lexFrom [] "Init []".toList
      = .word "Init".toList :: [.open, .close] ∧
    (∀ stmt, "Init".toList ≠ (mnemonicText stmt).toList ∧
      "Init".toList ≠ (mnemonicText stmt).toList.map Char.toUpper) :=
  ⟨by decide +kernel, fun stmt => by cases stmt <;> (simp only [mnemonicText]; decide)⟩

/-- PseudoInstructionsExpand: counts at their bound and a key of 16 bytes. -/
theorem witness_pseudoInstructions : (255 : Nat) ≤ 255 ∧ (List.replicate 16 (0 : Byte)).length = 16 := by
  decide

/-- StepRunsDecodedInstruction, and every statement about a step whose next input is a command
(StepReportsFirstFailingCheck with a command that passes, ResponseIsFormedFromTheStateAfter,
ErrIsTheLastCommandsCode, ResultIsValidAfterFourCommands, ValidHasExactlyItsWriters). -/
theorem witness_stepOfCommand : Next (given empty 0x00000101#32 counting) 0x00000101#32 counting [] ∧
    decode 0x00000101#32 counting = .ok (.init 16 counting) ∧ check empty.valid 0x00000101#32 = .ok ∧
    (after (step (given empty 0x00000101#32 counting))).isSome = true := by decide

/-- StepReportsFirstFailingCheck with a command that fails, ErrorsChangeOnlyWhatRaiseWrites,
UnreadPayloadBytesHaveNoEffect (second clause): a step to an error. -/
theorem witness_stepToError : Next (given empty 0x000000f1#32 counting) 0x000000f1#32 counting [] ∧
    check empty.valid 0x000000f1#32 ≠ .ok ∧
    (after (step (given empty 0x000000f1#32 counting))).map State.err = some .invalidKeyLength := by
  decide

/-- StepWithoutInputHoldsState, and the last clause of StatusHasItsFields. -/
theorem witness_noInput : empty.pending = [] ∧ after (step empty) = some empty := by decide

/-- StepTakesExactlyTheNextInput, AccelActiveIsOnlyObserved: a step with an input to take, for both
values of ACCEL_ACTIVE, by a command that is not ACCEL_QUERY. -/
theorem witness_stepWithInput : (after (step (given keyed 0x00040005#32 counting))).isSome = true ∧
    (after (step { given keyed 0x00040005#32 counting with accelActive := true })).isSome = true ∧
    opField 0x00040005#32 ≠ 0x7 ∧ (after (exec .accelQuery empty)).isSome = true := by decide

/-- InitLoadsTheKeyedConstants: the lengths on both sides of 16, a legal word and an illegal one. -/
theorem witness_init : (15 : Nat) ≠ 16 ∧ (17 : Nat) ≠ 16 ∧
    (opField 0x00000101#32 = 0x1 ∧ rsvField 0x00000101#32 = 0 ∧ cntField 0x00000101#32 = 0 ∧
      tlenField 0x00000101#32 = 0) ∧
    opField 0x00010101#32 = 0x1 ∧ cntField 0x00010101#32 ≠ 0 := by decide

/-- AbsorbFoldsInOneBlock: a valid state, an invalid one, the lengths on both sides of 8, words. -/
theorem witness_absorb :
    (keyed.v0 = some 0x7469686173716475#64 ∧ keyed.v1 = some 0x6b617f6d656e6665#64 ∧
      keyed.v2 = some 0x6b7f62616d677361#64 ∧ keyed.v3 = some 0x7b6b696e727e6c7b#64) ∧
    empty.valid ≠ 0b1111#4 ∧ (7 : Nat) ≠ 8 ∧ (9 : Nat) ≠ 8 ∧
    (opField 0x00020082#32 = 0x2 ∧ rsvField 0x00020082#32 = 0 ∧ tlenField 0x00020082#32 = 0) ∧
    opField 0x01020082#32 = 0x2 ∧ tlenField 0x01020082#32 ≠ 0 := by decide

/-- AbsorbLastFoldsInThePaddedBlock: as above, with the lengths 7 and 8 where the clauses meet. -/
theorem witness_absorbLast :
    (keyed.v0 = some 0x7469686173716475#64 ∧ keyed.v1 = some 0x6b617f6d656e6665#64 ∧
      keyed.v2 = some 0x6b7f62616d677361#64 ∧ keyed.v3 = some 0x7b6b696e727e6c7b#64) ∧
    empty.valid ≠ 0b1111#4 ∧ (7 : Nat) ≤ 7 ∧ (7 : Nat) < 8 ∧
    (opField 0x0F020073#32 = 0x3 ∧ rsvField 0x0F020073#32 = 0) ∧
    opField 0x00000203#32 = 0x3 ∧ rsvField 0x00000203#32 ≠ 0 := by decide

/-- CompressAppliesTheRounds and FinalizeReturnsTheDigest: a valid state, one with three valid words,
and words of both commands. -/
theorem witness_compress_finalize :
    (keyed.v0 = some 0x7469686173716475#64 ∧ keyed.v1 = some 0x6b617f6d656e6665#64 ∧
      keyed.v2 = some 0x6b7f62616d677361#64 ∧ keyed.v3 = some 0x7b6b696e727e6c7b#64) ∧
    ({ keyed with v3 := none } : State).valid ≠ 0b1111#4 ∧
    (opField 0x00010004#32 = 0x4 ∧ rsvField 0x00010004#32 = 0 ∧ plenField 0x00010004#32 = 0 ∧
      tlenField 0x00010004#32 = 0) ∧
    (opField 0x00010014#32 = 0x4 ∧ plenField 0x00010014#32 ≠ 0) ∧
    (opField 0x00040005#32 = 0x5 ∧ rsvField 0x00040005#32 = 0 ∧ plenField 0x00040005#32 = 0 ∧
      tlenField 0x00040005#32 = 0) ∧
    opField 0x01040005#32 = 0x5 ∧ tlenField 0x01040005#32 ≠ 0 := by decide

/-- RotlReturnsTheRotation, RotationMovesEachBit, RotationInverse: the amounts where the clauses meet,
a wrong length, and words. -/
theorem witness_rotl : ((1 : Nat) ≤ 1 ∧ (63 : Nat) ≤ 63) ∧ ((0 : Nat) = 0 ∨ 64 ≤ 0) ∧
    ((64 : Nat) = 0 ∨ 64 ≤ 64) ∧ (0 < 63 ∧ 63 < 64) ∧ (4 : Nat) ≠ 8 ∧
    (opField 0x000D0086#32 = 0x6 ∧ rsvField 0x000D0086#32 = 0 ∧ tlenField 0x000D0086#32 = 0) ∧
    opField 0x010D0086#32 = 0x6 ∧ tlenField 0x010D0086#32 ≠ 0 := by decide

/-- AccelQueryReturnsTheFlag: both values of the flag, and a word that differs in one field. -/
theorem witness_accelQuery : empty.accelActive = false ∧
    ({ empty with accelActive := true } : State).accelActive = true ∧
    opField 0x00000017#32 = 0x7 ∧ 0x00000017#32 ≠ 0x00000007#32 := by decide

/-- StateReadReturnsTheWord and StateWriteLoadsTheWord: a word with a value, one without, the selectors
3 and 4 where the clauses meet, and words. -/
theorem witness_stateAccess : keyed.v3 = some 0x7b6b696e727e6c7b#64 ∧
    empty.valid.getLsbD (selNumber .v3) = false ∧
    (opField 0x00030008#32 = 0x8 ∧ rsvField 0x00030008#32 = 0 ∧ plenField 0x00030008#32 = 0 ∧
      tlenField 0x00030008#32 = 0 ∧ cntField 0x00030008#32 = selNumber .v3) ∧
    (opField 0x00040008#32 = 0x8 ∧ 4 ≤ cntField 0x00040008#32) ∧
    (opField 0x00030089#32 = 0x9 ∧ rsvField 0x00030089#32 = 0 ∧ tlenField 0x00030089#32 = 0 ∧
      cntField 0x00030089#32 = selNumber .v3) ∧
    (opField 0x00040089#32 = 0x9 ∧ 4 ≤ cntField 0x00040089#32) ∧ (0 : Nat) ≠ 8 := by decide

/-- CommandsRaiseExactlyTheirErrors: an opcode and an error in its row of the table. -/
theorem witness_errorMatrix : (0x6 : Nat) < 16 ∧ ErrCode.invalidShift ≠ .ok ∧
    canRaise 0x6 .invalidShift = true ∧ canRaise 0x7 .invalidShift = false := by decide

/-- StickyRecordsEveryError: a step that fails, one that succeeds, and one that clears STICKY. -/
theorem witness_sticky :
    (after (step (given empty 0x00000000#32 counting))).map State.sticky = some true ∧
    (after (step (given { empty with sticky := true } 0x00000101#32 counting))).map State.sticky
      = some true ∧
    (after (step { empty with sticky := true, pending := [.reset] })).map State.sticky
      = some false := by decide

/-- ResetLeavesItsState: one of its two last clauses speaks of the instance the model is of, and which
one is open (10_state.md R32). -/
theorem witness_resetState : State.reset.accelActive = false ∨ State.reset.accelActive = true := by
  cases State.reset.accelActive <;> simp

/-- ResetReplacesEveryState: both kinds of reset as the next input. -/
theorem witness_reset : ({ keyed with pending := [.reset] } : State).pending = .reset :: [] ∧
    ({ keyed with pending := [.resetDuring 0#32 counting] } : State).pending
      = .resetDuring 0#32 counting :: [] := by decide

/-- UnreadPayloadBytesHaveNoEffect (first clause): payloads that differ in a byte ABSORB does not
read. -/
theorem witness_unreadBytes : bytesRead 0x00020082#32 = 8 ∧
    (∀ k, k < 8 → counting[k]? = (counting.set 8 0xff#8)[k]?) ∧
    counting ≠ counting.set 8 0xff#8 := by decide

/-- ReadingCommandsKeepTheWordsAndRepeat: a command of each kind, and INIT. -/
theorem witness_readsOnly : (Instr.finalize 4).opcode = .finalize ∧
    (after (exec (.finalize 4) keyed)).isSome = true ∧
    (after (exec (.init 16 counting) keyed)).isSome = true := by decide

/-- OnlyInitMakesAnEmptyStateValid: from an empty state, INIT and a command that needs one. -/
theorem witness_onlyInit : empty.valid = 0b0000#4 ∧
    (after (exec (.init 16 counting) empty)).map State.valid = some 0b1111#4 ∧
    (after (exec (.compress 1) empty)).map State.err = some .stateNotInitialized := by decide

/-- FinalBlockAsAWord: the longest remainder, and for a shorter one a bit of each part. -/
theorem witness_finalBlock : (7 : Nat) ≤ 7 ∧ (8 * 3 ≤ 24 ∧ 24 < 56) ∧ 23 < 8 * 3 := by decide

/-- SipRoundFollowsItsEightSteps: the trace of 95_test_vectors.md section 2.2 meets its equations. -/
theorem witness_sipRound :
    0xdfcae7ced8dfcada#64 = 0x7469686173716475#64 + 0x6b617f6d656e6665#64 ∧
    0xe6eacbcfdfe5dfdc#64 = 0x6b7f62616d677361#64 + 0x7b6b696e727e6c7b#64 ∧
    0x2fedacadccccad6c#64 = (0x6b617f6d656e6665#64).rotateLeft 13 ∧
    0x696e727e6c7b7b6b#64 = (0x7b6b696e727e6c7b#64).rotateLeft 16 ∧
    0xf0274b63141367b6#64 = 0x2fedacadccccad6c#64 ^^^ 0xdfcae7ced8dfcada#64 ∧
    0x8f84b9b1b39ea4b7#64 = 0x696e727e6c7b7b6b#64 ^^^ 0xe6eacbcfdfe5dfdc#64 ∧
    0xd8dfcadadfcae7ce#64 = (0xdfcae7ced8dfcada#64).rotateLeft 32 ∧
    0xd7121732f3f94792#64 = 0xe6eacbcfdfe5dfdc#64 + 0xf0274b63141367b6#64 ∧
    0x6864848c93698c85#64 = 0xd8dfcadadfcae7ce#64 + 0x8f84b9b1b39ea4b7#64 ∧
    0x96c62826cf6de04e#64 = (0xf0274b63141367b6#64).rotateLeft 17 ∧
    0x363673d496f1f097#64 = (0x8f84b9b1b39ea4b7#64).rotateLeft 21 ∧
    0x41d43f143c94a7dc#64 = 0x96c62826cf6de04e#64 ^^^ 0xd7121732f3f94792#64 ∧
    0x5e52f75805987c12#64 = 0x363673d496f1f097#64 ^^^ 0x6864848c93698c85#64 ∧
    0xf3f94792d7121732#64 = (0xd7121732f3f94792#64).rotateLeft 32 := by decide

/-- HostProtocolComputesTheDigest: the commands of the empty message are the host's next inputs. -/
theorem witness_hostProtocol : (2 : Nat) ≤ 255 ∧ (4 : Nat) ≤ 255 ∧
    ({ empty with pending := issue (hashCommands 2 4 counting []) } : State).pending
      = issue (hashCommands 2 4 counting []) ++ [] := by decide

/-- StepKeepsConsistency: a consistent state with an error and a response in it, and a step from it. -/
theorem witness_consistent :
    (raise .invalidShift (given empty 0x00000101#32 counting)).Consistent ∧
    (raise .invalidShift (given empty 0x00000101#32 counting)).err ≠ .ok ∧
    (after (step (raise .invalidShift (given empty 0x00000101#32 counting)))).isSome = true := by
  decide

end Sys2Proof.Tests
end

section
/-! PROOFS. What a command does, said once through the check of 60_exceptions.md R202: it raises the
error the check gives, or it completes. -/

namespace Sys2Proof

open Sys2Proof.Machine Sys2Proof.Spec

/-! ## The check, read off the decoded instruction -/

/-- The whole state must hold values (60_exceptions.md R202, step 6). -/
def needsAllWords (valid : BitVec 4) : ErrCode :=
  if valid = 0b1111#4 then .ok else .stateNotInitialized

/-- Steps 4 to 6 of 60_exceptions.md R202 for a decoded instruction: the first it fails, or OK. -/
def Instr.error (valid : BitVec 4) : Instr → ErrCode
  | .init plen _ => if plen = 16 then .ok else .invalidKeyLength
  | .absorb plen _ _ => if plen = 8 then needsAllWords valid else .invalidBlockLength
  | .absorbLast plen _ _ _ => if plen ≤ 7 then needsAllWords valid else .invalidRemainderLength
  | .compress _ => needsAllWords valid
  | .finalize _ => needsAllWords valid
  | .rotl plen amount _ =>
    if plen ≠ 8 then .illegalCommand
    else if amount = 0 ∨ 64 ≤ amount then .invalidShift else .ok
  | .accelQuery => .ok
  | .stateRead sel => if valid.getLsbD sel.index then .ok else .stateNotInitialized
  | .stateWrite plen _ _ => if plen = 8 then .ok else .illegalCommand

/-- The error of what the decoder answers: a rejection is IllegalCommand (30_encoding.md R68). -/
def errorOfDecoded (valid : BitVec 4) : Except DecodeError Instr → ErrCode
  | .ok i => i.error valid
  | .error _ => .illegalCommand

@[simp] theorem errorOfDecoded_ok (valid : BitVec 4) (i : Instr) :
    errorOfDecoded valid (.ok i) = i.error valid := rfl

@[simp] theorem errorOfDecoded_error (valid : BitVec 4) (d : DecodeError) :
    errorOfDecoded valid (.error d) = .illegalCommand := rfl

@[simp] theorem errorOfDecoded_ite (valid : BitVec 4) (c : Prop) [Decidable c]
    (x y : Except DecodeError Instr) : errorOfDecoded valid (if c then x else y) =
      if c then errorOfDecoded valid x else errorOfDecoded valid y :=
  apply_ite _ c x y

theorem validSelected_eq_getLsbD {cmd : CmdWord} {sel : VReg}
    (h : VReg.ofCnt (cntField cmd) = some sel) (valid : BitVec 4) :
    validSelected valid cmd = valid.getLsbD sel.index := by
  rw [validSelected, selBits_toNat, (VReg.ofCnt_eq_some_iff _ _).1 h, Nat.mod_eq_of_lt sel.index_lt]

/-- Once OP names a command and RSV is 0, the check's steps 3 to 6 and the decoder's operand rules
followed by the instruction's own checks are the same conditions on PLEN, CNT and TLEN. -/
theorem check_eq_errorOfDecoded_operands {cmd : CmdWord} {op : Opcode} (hcode : opField cmd = op.code)
    (hrsv : rsvField cmd = 0) (p : Payload) (valid : BitVec 4) :
    check valid cmd = errorOfDecoded valid (decodeOperands op cmd p) := by
  cases op with
  | stateRead | stateWrite =>
    cases hsel : VReg.ofCnt (cntField cmd) with
    | none =>
      have hcnt := (VReg.ofCnt_eq_none_iff _).1 hsel
      simp [check, firstError, hcode, hrsv, Opcode.code, cntHighBits_eq_zero_iff, hcnt,
        decodeOperands, hsel]
    | some sel =>
      have hcnt : cntField cmd < 4 := (VReg.ofCnt_eq_some_iff _ _).1 hsel ▸ sel.index_lt
      have hhigh := (cntHighBits_eq_zero_iff cmd).2 hcnt
      simp only [check, firstError, hcode, hrsv, hhigh, Opcode.code, validSelected_eq_getLsbD hsel,
        decodeOperands, hsel, errorOfDecoded_ite, errorOfDecoded_ok, errorOfDecoded_error,
        Instr.error]
      grind
  | _ =>
    simp only [check, firstError, hcode, hrsv, Opcode.code, decodeOperands, errorOfDecoded_ite,
      errorOfDecoded_ok, errorOfDecoded_error, Instr.error, needsAllWords]
    grind

/-- The check of a command word is the error of what the decoder makes of it. -/
theorem check_eq_errorOfDecoded (cmd : CmdWord) (p : Payload) (valid : BitVec 4) :
    check valid cmd = errorOfDecoded valid (decode cmd p) := by
  cases hop : Opcode.ofCode (opField cmd) with
  | none =>
    have hcode := (Opcode.ofCode_eq_none_iff _).1 hop
    simp [check, firstError, hcode, decode, hop]
  | some op =>
    have hcode := (Opcode.ofCode_eq_some_iff _ _).1 hop
    rw [decode_of_opField hcode p]
    by_cases hrsv : rsvField cmd = 0
    · rw [if_pos hrsv, check_eq_errorOfDecoded_operands hcode hrsv p]
    · simp [check, firstError, hrsv]

theorem opField_of_decode {cmd : CmdWord} {p : Payload} {i : Instr} (h : decode cmd p = .ok i) :
    opField cmd = i.opcode.code := ((decode_eq_ok_iff cmd p i).1 h).1

/-! ## VALID -/

/-- VALID[i] is 1 exactly when V[i] holds a value (10_state.md R25). -/
theorem Machine.State.getLsbD_valid (s : State) (r : VReg) :
    s.valid.getLsbD r.index = (s.readV r).isSome := by
  cases r <;> simp only [State.valid, State.readV, VReg.index, BitVec.getLsbD_append] <;> simp

theorem VReg.exists_index_eq {k : Nat} (hk : k < 4) : ∃ r : VReg, k = r.index := by
  cases h : VReg.ofCnt k with
  | none => exact absurd ((VReg.ofCnt_eq_none_iff k).1 h) (by omega)
  | some r => exact ⟨r, (VReg.ofCnt_eq_some_iff k r).1 h⟩

theorem VReg.getLsbD_one_shiftLeft_index (q r : VReg) :
    (1#4 <<< r.index).getLsbD q.index = decide (q = r) := by
  cases q <;> cases r <;> rfl

/-- Writing V[r] sets VALID[r] and no other bit (45_host.md R172). -/
theorem Machine.State.valid_writeV (s : State) (r : VReg) (x : Word) :
    (s.writeV r x).valid = s.valid ||| (1#4 <<< r.index) := by
  apply BitVec.eq_of_getLsbD_eq
  intro k hk
  obtain ⟨q, rfl⟩ := VReg.exists_index_eq hk
  rw [BitVec.getLsbD_or, State.getLsbD_valid, State.getLsbD_valid, VReg.getLsbD_one_shiftLeft_index]
  by_cases h : q = r
  · simp [h]
  · simp [h, State.readV_writeV_other s r x q h]

/-! ## What an instruction does, by its check -/

/-- VALID after an instruction that passes its check (10_state.md R24). -/
def Instr.validAfter (valid : BitVec 4) : Instr → BitVec 4
  | .init _ _ => 0b1111#4
  | .stateWrite _ sel _ => valid ||| (1#4 <<< sel.index)
  | _ => valid

/-- The commands that answer with a result (10_state.md R31). -/
def Opcode.answers : Opcode → Bool
  | .finalize | .rotl | .accelQuery | .stateRead => true
  | _ => false

/-- What an instruction does in a state: it raises the error of its check, or it passes the check and
completes. -/
inductive Instr.Effect (i : Instr) (s : State) : Prop where
  | raises (hfail : i.error s.valid ≠ .ok)
      (hexec : exec i s = .next (raise (i.error s.valid) s))
  | completes (r : Option Word) (u : State) (hpass : i.error s.valid = .ok)
      (hexec : exec i s = .next (complete r u)) (hresult : r.isSome = i.opcode.answers)
      (hvalid : u.valid = i.validAfter s.valid)

/-- `Effect.raises` with the error named. -/
theorem Instr.Effect.of_raise {i : Instr} {s : State} {e : ErrCode} (he : i.error s.valid = e)
    (hne : e ≠ .ok) (hexec : exec i s = .next (raise e s)) : i.Effect s :=
  .raises (he ▸ hne) (he ▸ hexec)

/-- A command that needs the whole state and then completes: it raises StateNotInitialized when VALID
is not 1111. -/
theorem Instr.Effect.of_withWords {i : Instr} {s : State} (r : SipState → Option Word)
    (f : SipState → State) (he : i.error s.valid = needsAllWords s.valid)
    (hexec : exec i s = .next (withWords s fun S => complete (r S) (f S)))
    (hresult : ∀ S, (r S).isSome = i.opcode.answers)
    (hvalid : s.valid = 0b1111#4 → ∀ S, (f S).valid = i.validAfter s.valid) : i.Effect s := by
  obtain ⟨S, hS, hrun⟩ | ⟨hnone, hrun⟩ := withWords_cases s fun S => complete (r S) (f S)
  · have hv : s.valid = 0b1111#4 := (State.valid_eq_ones_iff s).2 (by simp [hS])
    exact .completes (r S) (f S) (by rw [he, needsAllWords, if_pos hv]) (by rw [hexec, hrun])
      (hresult S) (hvalid hv S)
  · have hv := (State.words_eq_none_iff s).1 hnone
    exact .of_raise (by rw [he, needsAllWords, if_neg hv]) (by decide) (by rw [hexec, hrun])

theorem exec_effect (i : Instr) (s : State) : i.Effect s := by
  cases i with
  | init plen p =>
    by_cases hlen : plen = 16
    · subst hlen
      exact .completes none (s.loadWords (initWords (lowWord p) (highWord p))) rfl rfl rfl
        (State.valid_loadWords _ _)
    · exact .of_raise (if_neg hlen) (by decide) (congrArg _ (if_neg hlen))
  | absorb plen c p =>
    by_cases hlen : plen = 8
    · subst hlen
      exact .of_withWords (fun _ => none) (fun S => s.loadWords (absorb S (lowWord p) c)) rfl rfl
        (fun _ => rfl) (fun hv S => (State.valid_loadWords s _).trans hv.symm)
    · exact .of_raise (if_neg hlen) (by decide) (congrArg _ (if_neg hlen))
  | absorbLast plen c tlen p =>
    by_cases hlen : plen ≤ 7
    · exact .of_withWords (fun _ => none) (fun S => s.loadWords (absorb S (finalWord p plen tlen) c))
        (if_pos hlen) (congrArg _ (if_pos hlen)) (fun _ => rfl)
        (fun hv S => (State.valid_loadWords s _).trans hv.symm)
    · exact .of_raise (if_neg hlen) (by decide) (congrArg _ (if_neg hlen))
  | compress n =>
    exact .of_withWords (fun _ => none) (fun S => s.loadWords (compress S n)) rfl rfl
      (fun _ => rfl) (fun hv S => (State.valid_loadWords s _).trans hv.symm)
  | finalize d =>
    exact .of_withWords (fun S => some (finalize S d)) (fun _ => s) rfl rfl (fun _ => rfl)
      (fun _ _ => rfl)
  | rotl plen amount p =>
    by_cases hlen : plen = 8
    · subst hlen
      by_cases hrange : amount = 0 ∨ 64 ≤ amount
      · exact .of_raise (if_pos hrange) (by decide) (congrArg _ (if_pos hrange))
      · exact .completes (some (rotl64 (lowWord p) amount)) s (if_neg hrange)
          (congrArg _ (if_neg hrange)) rfl rfl
    · exact .of_raise (if_pos hlen) (by decide) (congrArg _ (if_pos hlen))
  | accelQuery => exact .completes _ s rfl rfl rfl rfl
  | stateRead sel =>
    have hbit := State.getLsbD_valid s sel
    cases hword : s.readV sel with
    | some x =>
      rw [hword] at hbit
      exact .completes (some x) s (if_pos hbit) (by simp only [exec, execStateRead, hword]) rfl rfl
    | none =>
      rw [hword] at hbit
      exact .of_raise (if_neg (by simp [hbit])) (by decide)
        (by simp only [exec, execStateRead, hword])
  | stateWrite plen sel p =>
    by_cases hlen : plen = 8
    · subst hlen
      exact .completes none (s.writeV sel (lowWord p)) rfl rfl rfl (State.valid_writeV s sel _)
    · exact .of_raise (if_neg hlen) (by decide) (congrArg _ (if_neg hlen))

/-! ## What a step does -/

/-- A step whose next input is a command raises the error of the check of that command, or passes the
check and completes the instruction of its word. -/
theorem step_by_check {s t : State} {cmd : CmdWord} {p : Payload} {rest : List HostInput}
    (hnext : Next s cmd p rest) (hstep : step s = .next t) :
    (check s.valid cmd ≠ .ok ∧ t = raise (check s.valid cmd) { s with pending := rest }) ∨
    (check s.valid cmd = .ok ∧ ∃ i r u, decode cmd p = .ok i ∧ t = complete r u ∧
      r.isSome = i.opcode.answers ∧ u.valid = i.validAfter s.valid) := by
  rw [step_of_command hnext] at hstep
  rw [check_eq_errorOfDecoded cmd p]
  obtain ⟨i, hdec, hrun⟩ | ⟨d, hdec, hrun⟩ := runCommand_cases cmd p { s with pending := rest }
  · rw [hrun] at hstep
    rw [hdec, errorOfDecoded_ok]
    cases exec_effect i { s with pending := rest } with
    | raises hfail hexec =>
      rw [hexec] at hstep
      cases hstep
      exact .inl ⟨hfail, rfl⟩
    | completes r u hpass hexec hresult hvalid =>
      rw [hexec] at hstep
      cases hstep
      exact .inr ⟨hpass, i, r, u, rfl, rfl, hresult, hvalid⟩
  · rw [hrun] at hstep
    cases hstep
    rw [hdec, errorOfDecoded_error]
    exact .inl ⟨by decide, rfl⟩

/-- Whatever a command is, it ends by raising an error or by completing on a state with the STICKY and
ACCEL_ACTIVE it had (60_exceptions.md R203, 30_encoding.md R74). -/
theorem runCommand_ends {cmd : CmdWord} {p : Payload} {s t : State}
    (hrun : runCommand cmd p s = .next t) :
    (∃ e, e ≠ .ok ∧ t = raise e s) ∨
    (∃ r u, t = complete r u ∧ u.sticky = s.sticky ∧ u.accelActive = s.accelActive) := by
  obtain ⟨i, -, hi⟩ | ⟨d, -, hd⟩ := runCommand_cases cmd p s
  · rw [hi] at hrun
    obtain ⟨e, hne, h⟩ | ⟨r, S, h⟩ | ⟨r, x, h⟩ | ⟨x, h⟩ := exec_cases i s <;>
      rw [h] at hrun <;> cases hrun
    · exact .inl ⟨e, hne, rfl⟩
    · exact .inr ⟨_, _, rfl, rfl, rfl⟩
    · exact .inr ⟨_, _, rfl, State.writeV_sticky s r x, State.writeV_accelActive s r x⟩
    · exact .inr ⟨_, _, rfl, rfl, rfl⟩
  · rw [hd] at hrun
    cases hrun
    exact .inl ⟨_, by decide, rfl⟩

/-- What a step takes: no input, a command, or a reset of one of the two kinds. -/
theorem step_inputs {s t : State} (hstep : step s = .next t) :
    (s.pending = [] ∧ t = s) ∨
    (∃ cmd p rest, Next s cmd p rest ∧ runCommand cmd p { s with pending := rest } = .next t) ∨
    (∃ input rest, s.pending = input :: rest ∧ (∀ cmd p, input ≠ .command cmd p) ∧
      t = { s with pending := rest }.resetCore) := by
  obtain ⟨hnone, h⟩ | ⟨input, rest, hpending, h⟩ := step_cases s <;> rw [h] at hstep
  · cases hstep
    exact .inl ⟨hnone, rfl⟩
  · cases input with
    | command cmd p => exact .inr (.inl ⟨cmd, p, rest, hpending, hstep⟩)
    | reset =>
      cases hstep
      exact .inr (.inr ⟨_, rest, hpending, by simp, rfl⟩)
    | resetDuring cmd p =>
      cases hstep
      exact .inr (.inr ⟨_, rest, hpending, by simp, rfl⟩)

end Sys2Proof
end

section
/-! PROOFS. The fields of STATUS (10_state.md R28). -/

namespace Sys2Proof

open Sys2Proof.Machine

variable (err : BitVec 4) (sticky : Bool) (valid : BitVec 4) (resValid accel : Bool)

theorem statusWord_err : (statusWord err sticky valid resValid accel).extractLsb' 0 4 = err := by
  rw [statusWord, BitVec.extractLsb'_append_eq_of_add_le (by decide)]
  exact BitVec.extractLsb'_eq_self

theorem statusWord_sticky : (statusWord err sticky valid resValid accel).getLsbD 4 = sticky := by
  simp only [statusWord, BitVec.getLsbD_append]
  simp

theorem statusWord_reserved_low :
    (statusWord err sticky valid resValid accel).extractLsb' 5 3 = 0#3 := by
  rw [statusWord, BitVec.extractLsb'_append_eq_of_le (by decide),
    BitVec.extractLsb'_append_eq_of_le (by decide), BitVec.extractLsb'_append_eq_of_add_le (by decide)]
  exact BitVec.extractLsb'_eq_self

theorem statusWord_valid : (statusWord err sticky valid resValid accel).extractLsb' 8 4 = valid := by
  rw [statusWord, BitVec.extractLsb'_append_eq_of_le (by decide),
    BitVec.extractLsb'_append_eq_of_le (by decide), BitVec.extractLsb'_append_eq_of_le (by decide),
    BitVec.extractLsb'_append_eq_of_add_le (by decide)]
  exact BitVec.extractLsb'_eq_self

theorem statusWord_resValid :
    (statusWord err sticky valid resValid accel).getLsbD 12 = resValid := by
  simp only [statusWord, BitVec.getLsbD_append]
  simp

theorem statusWord_accel : (statusWord err sticky valid resValid accel).getLsbD 13 = accel := by
  simp only [statusWord, BitVec.getLsbD_append]
  simp

theorem statusWord_reserved_high :
    (statusWord err sticky valid resValid accel).extractLsb' 14 18 = 0#18 := by
  rw [statusWord, BitVec.extractLsb'_append_eq_of_le (by decide),
    BitVec.extractLsb'_append_eq_of_le (by decide), BitVec.extractLsb'_append_eq_of_le (by decide),
    BitVec.extractLsb'_append_eq_of_le (by decide), BitVec.extractLsb'_append_eq_of_le (by decide),
    BitVec.extractLsb'_append_eq_of_le (by decide)]
  exact BitVec.extractLsb'_eq_self

@[simp] theorem Machine.State.valid_resetCore (s : State) : s.resetCore.valid = 0b0000#4 := by
  simp [State.valid]

end Sys2Proof
end

section
/-! PROOFS. ACCEL_ACTIVE influences only what shows it (10_state.md R32): a command run on a core with
the other flag leaves the same state but for the flag, the response and ACCEL_QUERY's RESULT. -/

namespace Sys2Proof

open Sys2Proof.Machine Sys2Proof.Spec

/-- The state after the same command on a core whose flag is `b`: the response is formed anew. -/
def Machine.State.respondWithAccel (b : Bool) (s : State) : State :=
  ({ s with accelActive := b } : State).respond

theorem complete_withAccel (b : Bool) (r : Option Word) (s : State) :
    complete r { s with accelActive := b } = (complete r s).respondWithAccel b := rfl

theorem raise_withAccel (b : Bool) (e : ErrCode) (s : State) :
    raise e { s with accelActive := b } = (raise e s).respondWithAccel b := by
  cases e <;> rfl

theorem withWords_withAccel {b : Bool} {s : State} {k k' : SipState → State}
    (hk : ∀ S, k' S = (k S).respondWithAccel b) :
    withWords { s with accelActive := b } k' = (withWords s k).respondWithAccel b := by
  obtain ⟨S, hS, hrun⟩ | ⟨hnone, hrun⟩ := withWords_cases s k
  · rw [hrun, ← hk]
    exact withWords_of_some (s := { s with accelActive := b }) hS k'
  · rw [hrun, ← raise_withAccel]
    exact withWords_of_none (s := { s with accelActive := b }) hnone k'

/-- Every instruction but ACCEL_QUERY runs alike on both cores. -/
theorem exec_withAccel {i : Instr} {s t : State} (hi : i.opcode ≠ .accelQuery)
    (hexec : exec i s = .next t) (b : Bool) :
    exec i { s with accelActive := b } = .next (t.respondWithAccel b) := by
  cases i with
  | init plen p =>
    cases hexec
    simp only [exec, execInit]
    split <;> rfl
  | absorb plen c p =>
    cases hexec
    simp only [exec, execAbsorb]
    split
    · exact congrArg _ (withWords_withAccel fun _ => rfl)
    · rfl
  | absorbLast plen c tlen p =>
    cases hexec
    simp only [exec, execAbsorbLast]
    split
    · exact congrArg _ (withWords_withAccel fun _ => rfl)
    · rfl
  | compress n =>
    cases hexec
    simp only [exec, execCompress]
    exact congrArg _ (withWords_withAccel fun _ => rfl)
  | finalize d =>
    cases hexec
    simp only [exec, execFinalize]
    exact congrArg _ (withWords_withAccel fun _ => rfl)
  | rotl plen amount p =>
    cases hexec
    simp only [exec, execRotl]
    split
    · rfl
    · split <;> rfl
  | accelQuery => exact absurd rfl hi
  | stateRead sel =>
    cases hexec
    have hword : ({ s with accelActive := b } : State).readV sel = s.readV sel := by cases sel <;> rfl
    simp only [exec, execStateRead, hword]
    cases s.readV sel <;> rfl
  | stateWrite plen sel p =>
    cases hexec
    simp only [exec, execStateWrite]
    split
    · cases sel <;> rfl
    · rfl

/-- A command leaves the same on both cores, but for the flag, the response, and the result of
ACCEL_QUERY. -/
theorem runCommand_withAccel {cmd : CmdWord} {p : Payload} {s t : State}
    (hrun : runCommand cmd p s = .next t) (b : Bool) :
    ∃ r q, runCommand cmd p { s with accelActive := b } =
        .next { t with accelActive := b, result := r, response := q } ∧
      r.isSome = t.result.isSome ∧ (opField cmd ≠ 0x7 → r = t.result) := by
  unfold runCommand at hrun ⊢
  cases hdec : decode cmd p with
  | error d =>
    simp only [hdec] at hrun ⊢
    cases hrun
    exact ⟨_, _, congrArg _ (raise_withAccel b .illegalCommand s), rfl, fun _ => rfl⟩
  | ok i =>
    simp only [hdec] at hrun ⊢
    by_cases hi : i = .accelQuery
    · subst hi
      cases hrun
      exact ⟨_, _, rfl, rfl, fun hop => absurd (opField_of_decode hdec) hop⟩
    · have hop : i.opcode ≠ .accelQuery := by cases i <;> simp [Instr.opcode] at hi ⊢
      exact ⟨_, _, exec_withAccel hop hrun b, rfl, fun _ => rfl⟩

theorem step_withAccel {s t : State} (hstep : step s = .next t) (b : Bool) :
    ∃ r q, step { s with accelActive := b } =
        .next { t with accelActive := b, result := r, response := q } ∧
      r.isSome = t.result.isSome ∧
      ((∀ cmd p rest, Next s cmd p rest → opField cmd ≠ 0x7) → r = t.result) := by
  obtain ⟨hnone, rfl⟩ | ⟨cmd, p, rest, hnext, hrun⟩ | ⟨input, rest, hpending, hreset, rfl⟩ :=
    step_inputs hstep
  · exact ⟨t.result, t.response, by simp [step, hnone], rfl, fun _ => rfl⟩
  · obtain ⟨r, q, hrun', hsome, hresult⟩ := runCommand_withAccel hrun b
    refine ⟨r, q, ?_, hsome, fun hop => hresult (hop cmd p rest hnext)⟩
    rw [step_of_command (s := { s with accelActive := b }) hnext]
    exact hrun'
  · refine ⟨none, none, ?_, rfl, fun _ => rfl⟩
    cases input with
    | command cmd p => exact absurd rfl (hreset cmd p)
    | reset => simp only [step, hpending, runInput]; rfl
    | resetDuring cmd p => simp only [step, hpending, runInput]; rfl

theorem accelActive_of_step {s t : State} (hstep : step s = .next t) :
    t.accelActive = s.accelActive := by
  obtain ⟨-, rfl⟩ | ⟨cmd, p, rest, -, hrun⟩ | ⟨input, rest, -, -, rfl⟩ := step_inputs hstep
  · rfl
  · obtain ⟨e, -, rfl⟩ | ⟨r, u, rfl, -, haccel⟩ := runCommand_ends hrun
    · exact raise_accelActive _ e
    · exact haccel
  · rfl

end Sys2Proof
end

section
/-! PROOFS. The statements of 10_state.md, from what a step does. -/

namespace Sys2Proof

open Sys2Proof.Machine Sys2Proof.Spec

/-- A raised error leaves the relations of `Consistent`. -/
theorem consistent_raise (e : ErrCode) (s : State) : (raise e s).Consistent :=
  ⟨fun _ => ⟨rfl, raise_result s e⟩, .inr rfl⟩

theorem consistent_complete (r : Option Word) (s : State) : (complete r s).Consistent :=
  ⟨fun h => absurd rfl h, .inr rfl⟩

theorem consistent_resetCore (s : State) : s.resetCore.Consistent :=
  ⟨fun h => absurd rfl h, .inl rfl⟩

/-- Settles O46: a command ends by raising or completing, and each of the two writes every field the
relations speak of; so does a reset. -/
theorem stepKeepsConsistency : Obligations.StepKeepsConsistency := by
  intro s t hs hstep
  obtain ⟨-, rfl⟩ | ⟨cmd, p, rest, -, hrun⟩ | ⟨input, rest, -, -, rfl⟩ := step_inputs hstep
  · exact hs
  · obtain ⟨e, -, rfl⟩ | ⟨r, u, rfl, -, -⟩ := runCommand_ends hrun
    · exact consistent_raise e _
    · exact consistent_complete r u
  · exact consistent_resetCore _

/-- Settles O15: both ends of a command put the response of their own state on the port. -/
theorem responseIsFormedFromTheStateAfter : Obligations.ResponseIsFormedFromTheStateAfter := by
  intro s t cmd p rest hnext hstep
  obtain ⟨-, rfl⟩ | ⟨-, i, r, u, -, rfl, -, -⟩ := step_by_check hnext hstep <;> rfl

theorem Machine.ErrCode.code_eq_zero_iff (e : ErrCode) : e.code = 0#4 ↔ e = .ok := by
  cases e <;> decide

theorem err_of_step {s t : State} {cmd : CmdWord} {p : Payload} {rest : List HostInput}
    (hnext : Next s cmd p rest) (hstep : step s = .next t) : t.err = check s.valid cmd := by
  obtain ⟨-, rfl⟩ | ⟨hpass, i, r, u, -, rfl, -, -⟩ := step_by_check hnext hstep
  · rfl
  · exact hpass.symm

/-- Settles O27: a failing command raises the error of its check, a passing one writes OK. -/
theorem errIsTheLastCommandsCode : Obligations.ErrIsTheLastCommandsCode := by
  refine ⟨fun s t cmd p rest hnext hstep => ?_, fun e => by cases e <;> decide, rfl, rfl, rfl, rfl,
    rfl, rfl, rfl, rfl⟩
  have herr := err_of_step hnext hstep
  exact ⟨herr, by rw [ErrCode.code_eq_zero_iff, herr]⟩

theorem sticky_of_runCommand {cmd : CmdWord} {p : Payload} {s t : State}
    (hrun : runCommand cmd p s = .next t) :
    (t.err ≠ .ok → t.sticky = true) ∧ (t.err = .ok → t.sticky = s.sticky) := by
  obtain ⟨e, hne, rfl⟩ | ⟨r, u, rfl, hsticky, -⟩ := runCommand_ends hrun
  · exact ⟨fun _ => rfl, fun h => absurd h hne⟩
  · exact ⟨fun h => absurd rfl h, fun _ => hsticky⟩

/-- Settles O28: `raise` sets STICKY, `complete` keeps it, so only a reset can clear it. -/
theorem stickyRecordsEveryError : Obligations.StickyRecordsEveryError := by
  refine ⟨fun s t cmd p rest hnext hstep => ?_, fun s t hstep hset hclear => ?_, fun _ => rfl, rfl⟩
  · rw [step_of_command hnext] at hstep
    have hsticky := sticky_of_runCommand hstep
    exact hsticky
  · obtain ⟨-, rfl⟩ | ⟨cmd, p, rest, -, hrun⟩ | ⟨input, rest, hpending, hreset, -⟩ :=
      step_inputs hstep
    · simp [hset] at hclear
    · obtain ⟨hfail, hpass⟩ := sticky_of_runCommand hrun
      by_cases herr : t.err = .ok
      · simp [hpass herr, hset] at hclear
      · simp [hfail herr] at hclear
    · exact ⟨input, rest, hpending, hreset⟩

theorem Opcode.answers_iff (op : Opcode) :
    op.answers = true ↔ op.code = 0x5 ∨ op.code = 0x6 ∨ op.code = 0x7 ∨ op.code = 0x8 := by
  cases op <;> decide

/-- Settles O29: an error leaves no result, and the instruction that completes leaves one exactly when
its command is one of the four. -/
theorem resultIsValidAfterFourCommands : Obligations.ResultIsValidAfterFourCommands := by
  refine ⟨fun s t cmd p rest hnext hstep => ⟨?_, by simp [State.resValid]⟩, rfl, rfl⟩
  obtain ⟨hfail, rfl⟩ | ⟨-, i, r, u, hdec, rfl, hresult, -⟩ := step_by_check hnext hstep
  · simp [State.resValid, hfail]
  · rw [opField_of_decode hdec, ← Opcode.answers_iff, ← hresult]
    simp [State.resValid]

theorem Machine.ErrCode.aborts_iff (e : ErrCode) : e.aborts = true ↔
    e = .invalidKeyLength ∨ e = .invalidBlockLength ∨ e = .invalidRemainderLength := by
  cases e <;> decide

theorem cntField_of_decode_stateWrite {cmd : CmdWord} {p q : Payload} {plen : Nat} {sel : VReg}
    (h : decode cmd p = .ok (.stateWrite plen sel q)) : cntField cmd = sel.index := by
  obtain ⟨-, -, hops⟩ := (decode_eq_ok_iff cmd p _).1 h
  simp only [Instr.opcode, decodeOperands] at hops
  split at hops
  · rename_i sel' hsel
    split at hops <;> cases hops
    exact (VReg.ofCnt_eq_some_iff _ _).1 hsel
  · cases hops

/-- `validAfter` in terms of the command word's fields. -/
theorem validAfter_of_decode {cmd : CmdWord} {p : Payload} {i : Instr} (h : decode cmd p = .ok i)
    (valid : BitVec 4) : i.validAfter valid =
      if opField cmd = 0x1 then 0b1111#4
      else if opField cmd = 0x9 then valid ||| (1#4 <<< cntField cmd) else valid := by
  rw [opField_of_decode h]
  cases i with
  | stateWrite plen sel q => rw [cntField_of_decode_stateWrite h]; rfl
  | _ => rfl

/-- Settles O30: an abort clears VALID, another error keeps it, and a command that succeeds leaves what
its instruction writes. -/
theorem validHasExactlyItsWriters : Obligations.ValidHasExactlyItsWriters := by
  refine ⟨fun s t cmd p rest hnext hstep => ?_, fun s => ?_, fun s i => ?_, State.valid_resetCore,
    State.valid_resetCore .reset⟩
  · obtain ⟨hfail, rfl⟩ | ⟨-, i, r, u, hdec, rfl, -, hvalid⟩ := step_by_check hnext hstep
    · simp only [State.valid_raise, raise_err, ErrCode.aborts_iff, hfail, false_and, if_false]
      rfl
    · simp [hvalid, validAfter_of_decode hdec]
  · exact ⟨s.getLsbD_valid .v0, s.getLsbD_valid .v1, s.getLsbD_valid .v2, s.getLsbD_valid .v3⟩
  · cases i
    · exact s.getLsbD_valid .v0
    · exact s.getLsbD_valid .v1
    · exact s.getLsbD_valid .v2
    · exact s.getLsbD_valid .v3

/-- Settles O31: STATUS is the word of its fields, before and after reset, and a step without an input
holds the state. -/
theorem statusHasItsFields : Obligations.StatusHasItsFields := by
  refine ⟨fun s => ?_, fun s => ?_, fun s t hnone hstep => ?_⟩
  · exact ⟨statusWord_err .., statusWord_sticky .., statusWord_reserved_low .., statusWord_valid ..,
      statusWord_resValid .., statusWord_accel .., statusWord_reserved_high ..⟩
  · exact ⟨statusWord_err .., statusWord_sticky .., (statusWord_valid ..).trans s.valid_resetCore,
      statusWord_resValid .., statusWord_accel ..⟩
  · rw [show step s = .next s by simp only [step, hnone]] at hstep
    cases hstep
    rfl

/-- Settles O34: the flag is copied by every end of a command and by reset, and a step of the core
with the other flag leaves the same state but for the flag and what shows it. -/
theorem accelActiveIsOnlyObserved : Obligations.AccelActiveIsOnlyObserved := by
  refine ⟨fun s t => accelActive_of_step, fun s => statusWord_accel .., fun s t hexec => ?_,
    fun s t u b hstep hstep' => ?_⟩
  · cases hexec
    rfl
  · obtain ⟨r, q, htwin, hsome, hresult⟩ := step_withAccel hstep b
    rw [htwin] at hstep'
    cases hstep'
    exact ⟨rfl, rfl, rfl, rfl, rfl, rfl, rfl, hsome, hresult⟩

end Sys2Proof
end

section
/-! PROOFS. The little-endian words of a payload (20_memory.md R42, R43). -/

namespace Sys2Proof

open Sys2Proof.Machine

/-- LE64 loses no carry: its number is the sum of the bytes' weights (20_memory.md R42). -/
theorem toNat_le64 (b : Vector Byte 8) :
    (le64 b).toNat = b[0].toNat + b[1].toNat * 2 ^ 8 + b[2].toNat * 2 ^ 16 + b[3].toNat * 2 ^ 24
      + b[4].toNat * 2 ^ 32 + b[5].toNat * 2 ^ 40 + b[6].toNat * 2 ^ 48 + b[7].toNat * 2 ^ 56 :=
  (BitVec.toNat_ofNat _ _).trans (Nat.mod_eq_of_lt (le64_sum_lt b))

/-- Byte i of the decode is the digit of weight 256^i of the sum, since every byte is below 256. -/
theorem extractLsb'_le64 (b : Vector Byte 8) (i : Fin 8) :
    (le64 b).extractLsb' (8 * i.val) 8 = b[i.val] := by
  apply BitVec.eq_of_toNat_eq
  rw [BitVec.extractLsb'_toNat, toNat_le64, Nat.shiftRight_eq_div_pow]
  have h0 := b[0].isLt
  have h1 := b[1].isLt
  have h2 := b[2].isLt
  have h3 := b[3].isLt
  have h4 := b[4].isLt
  have h5 := b[5].isLt
  have h6 := b[6].isLt
  have h7 := b[7].isLt
  fin_cases i <;> dsimp only <;> omega

theorem getElem_payloadLow (p : Payload) (i : Fin 8) : (payloadLow p)[i.val] = p[i.val] := by
  fin_cases i <;> rfl

theorem getElem_payloadHigh (p : Payload) (i : Fin 8) : (payloadHigh p)[i.val] = p[i.val + 8] := by
  fin_cases i <;> rfl

/-- Settles O38: the sum of the weights has no carry out, its digits are the bytes, and the two words
decode the two halves of the payload. -/
theorem littleEndianDecode : Obligations.LittleEndianDecode :=
  ⟨toNat_le64, extractLsb'_le64, fun p i =>
    ⟨(extractLsb'_le64 _ i).trans (getElem_payloadLow p i),
      (extractLsb'_le64 _ i).trans (getElem_payloadHigh p i)⟩⟩

end Sys2Proof
end

section
/-! PROOFS. The payload bytes a command reads (20_memory.md R50): the decoder only passes the payload
on, and each meaning reads no more of it than the command's set. -/

namespace Sys2Proof

open Sys2Proof.Machine Sys2Proof.Spec

/-- The same instruction with another payload, where its row reads one. -/
def Instr.withPayload (q : Payload) : Instr → Instr
  | .init plen _ => .init plen q
  | .absorb plen c _ => .absorb plen c q
  | .absorbLast plen c tlen _ => .absorbLast plen c tlen q
  | .rotl plen amount _ => .rotl plen amount q
  | .stateWrite plen sel _ => .stateWrite plen sel q
  | .compress n => .compress n
  | .finalize d => .finalize d
  | .accelQuery => .accelQuery
  | .stateRead sel => .stateRead sel

/-- How many payload bytes, from P[0] on, an instruction can read (20_memory.md R50). -/
def Instr.bytesRead : Instr → Nat
  | .init _ _ => 16
  | .absorb _ _ _ | .rotl _ _ _ | .stateWrite _ _ _ => 8
  | .absorbLast plen _ _ _ => plen
  | .compress _ | .finalize _ | .accelQuery | .stateRead _ => 0

theorem decodeOperands_withPayload (op : Opcode) (cmd : CmdWord) (p q : Payload) :
    decodeOperands op cmd q = (decodeOperands op cmd p).map (Instr.withPayload q) := by
  cases op <;> simp only [decodeOperands] <;> (repeat' split) <;> rfl

/-- What a command word decodes to depends on the payload only in carrying it (30_encoding.md R69). -/
theorem decode_withPayload (cmd : CmdWord) (p q : Payload) :
    decode cmd q = (decode cmd p).map (Instr.withPayload q) := by
  unfold decode
  split
  · rfl
  · split
    · exact decodeOperands_withPayload _ cmd p q
    · rfl

theorem withPayload_of_decode {cmd : CmdWord} {p : Payload} {i : Instr} (h : decode cmd p = .ok i) :
    i.withPayload p = i := by
  have hself := decode_withPayload cmd p p
  rw [h] at hself
  exact (Except.ok.inj hself).symm

theorem plenField_of_decode_absorbLast {cmd : CmdWord} {p q : Payload} {plen c : Nat} {tlen : Byte}
    (h : decode cmd p = .ok (.absorbLast plen c tlen q)) : plenField cmd = plen := by
  obtain ⟨-, -, hops⟩ := (decode_eq_ok_iff cmd p _).1 h
  cases hops
  rfl

theorem bytesRead_of_decode {cmd : CmdWord} {p : Payload} {i : Instr} (h : decode cmd p = .ok i) :
    bytesRead cmd = i.bytesRead := by
  rw [bytesRead, opField_of_decode h]
  cases i with
  | absorbLast plen c tlen q => exact plenField_of_decode_absorbLast h
  | _ => rfl

/-- An instruction does the same with two payloads that agree on the bytes it reads. -/
theorem exec_withPayload_congr {i : Instr} {p q : Payload}
    (h : ∀ k, k < i.bytesRead → p[k]? = q[k]?) (s : State) :
    exec (i.withPayload p) s = exec (i.withPayload q) s := by
  cases i with
  | init plen =>
    have hpq : p = q := Vector.ext fun k hk => by simpa [hk] using h k hk
    rw [hpq]
  | absorb plen c => simp only [Instr.withPayload, exec, execAbsorb, lowWord_congr h]
  | absorbLast plen c tlen =>
    have hword := finalWord_congr (plen := plen) h tlen
    simp only [Instr.withPayload, exec, execAbsorbLast, hword]
  | rotl plen amount => simp only [Instr.withPayload, exec, execRotl, lowWord_congr h]
  | stateWrite plen sel => simp only [Instr.withPayload, exec, execStateWrite, lowWord_congr h]
  | compress n | finalize d | accelQuery | stateRead sel => rfl

theorem runCommand_congr {cmd : CmdWord} {p q : Payload}
    (h : ∀ k, k < bytesRead cmd → p[k]? = q[k]?) (s : State) :
    runCommand cmd p s = runCommand cmd q s := by
  have hother := decode_withPayload cmd p q
  cases hdec : decode cmd p with
  | error d =>
    rw [hdec] at hother
    simp only [runCommand, hdec, hother, Except.map]
  | ok i =>
    rw [hdec] at hother
    rw [bytesRead_of_decode hdec] at h
    have hexec := exec_withPayload_congr h s
    rw [withPayload_of_decode hdec] at hexec
    simpa only [runCommand, hdec, hother, Except.map] using hexec

/-- A command whose check fails raises the error of the check, which reads no payload. -/
theorem runCommand_of_check_ne_ok {cmd : CmdWord} {s : State} (hfail : check s.valid cmd ≠ .ok)
    (p : Payload) : runCommand cmd p s = .next (raise (check s.valid cmd) s) := by
  rw [check_eq_errorOfDecoded cmd p] at hfail ⊢
  obtain ⟨i, hdec, hrun⟩ | ⟨d, hdec, hrun⟩ := runCommand_cases cmd p s <;>
    rw [hrun, hdec]
  · rw [hdec] at hfail
    cases exec_effect i s with
    | raises _ hexec => exact hexec
    | completes r u hpass => exact absurd hpass hfail
  · rfl

theorem step_command_pending (s : State) (cmd : CmdWord) (p : Payload) (rest : List HostInput) :
    step { s with pending := .command cmd p :: rest } =
      runCommand cmd p { s with pending := rest } := step_of_command rfl

/-- Settles O35: the step runs the command, which reads the payload only on the bytes of its set, and
not at all when its check fails. -/
theorem unreadPayloadBytesHaveNoEffect : Obligations.UnreadPayloadBytesHaveNoEffect := by
  refine ⟨fun s cmd p q rest hagree => ?_, fun s cmd p q rest hfail => ?_⟩ <;>
    rw [step_command_pending, step_command_pending]
  · exact runCommand_congr hagree _
  · have hraise := runCommand_of_check_ne_ok (s := { s with pending := rest }) hfail
    rw [hraise p, hraise q]

end Sys2Proof
end

section
/-! PROOFS. The commands that can be repeated (20_memory.md R52): what a reading command does depends
on the words and ACCEL_ACTIVE alone, and it ends in a way that keeps both and is idempotent. -/

namespace Sys2Proof

open Sys2Proof.Machine Sys2Proof.Spec

/-- `t` has the words and the ACCEL_ACTIVE of `s`: all that a reading command looks at. -/
structure Machine.State.SameWords (s t : State) : Prop where
  v0 : t.v0 = s.v0
  v1 : t.v1 = s.v1
  v2 : t.v2 = s.v2
  v3 : t.v3 = s.v3
  accelActive : t.accelActive = s.accelActive

theorem Machine.State.SameWords.words {s t : State} (h : s.SameWords t) : t.words = s.words := by
  simp only [State.words, h.v0, h.v1, h.v2, h.v3]

theorem Machine.State.SameWords.readV {s t : State} (h : s.SameWords t) (r : VReg) :
    t.readV r = s.readV r := by
  cases r with
  | v0 => exact h.v0
  | v1 => exact h.v1
  | v2 => exact h.v2
  | v3 => exact h.v3

/-- The ends of a command that leave the words alone: an error that does not abort, or completing. -/
inductive ReadingEnd : (State → State) → Prop where
  | raises (e : ErrCode) (hkeeps : e.aborts = false) : ReadingEnd (raise e)
  | completes (r : Option Word) : ReadingEnd (complete r)

theorem ReadingEnd.sameWords {f : State → State} (h : ReadingEnd f) (s : State) :
    s.SameWords (f s) := by
  cases h with
  | raises e hkeeps => constructor <;> simp [hkeeps]
  | completes r => exact ⟨rfl, rfl, rfl, rfl, rfl⟩

theorem ReadingEnd.idempotent {f : State → State} (h : ReadingEnd f) (s : State) :
    f (f s) = f s := by
  cases h with
  | raises e => cases e <;> rfl
  | completes r => rfl

/-- A reading command ends in one and the same way in all states with the words and ACCEL_ACTIVE of
`s`. -/
theorem exec_of_readsOnly {i : Instr} (hi : ReadsOnly i) (s : State) :
    ∃ f, ReadingEnd f ∧ ∀ t, s.SameWords t → exec i t = .next (f t) := by
  cases i with
  | finalize d =>
    cases hwords : s.words with
    | some S =>
      exact ⟨_, .completes (some (finalize S d)), fun t h =>
        congrArg _ (withWords_of_some (h.words.trans hwords) _)⟩
    | none =>
      exact ⟨_, .raises .stateNotInitialized rfl, fun t h =>
        congrArg _ (withWords_of_none (h.words.trans hwords) _)⟩
  | rotl plen amount p =>
    by_cases hlen : plen = 8
    · subst hlen
      by_cases hrange : amount = 0 ∨ 64 ≤ amount
      · exact ⟨_, .raises .invalidShift rfl, fun t _ => congrArg _ (if_pos hrange)⟩
      · exact ⟨_, .completes (some (rotl64 (lowWord p) amount)), fun t _ =>
          congrArg _ (if_neg hrange)⟩
    · exact ⟨_, .raises .illegalCommand rfl, fun t _ => congrArg _ (if_pos hlen)⟩
  | accelQuery =>
    exact ⟨_, .completes (some (if s.accelActive then 1#64 else 0#64)), fun t h => by
      rw [← h.accelActive]
      rfl⟩
  | stateRead sel =>
    cases hword : s.readV sel with
    | some x =>
      exact ⟨_, .completes (some x), fun t h => by
        simp only [exec, execStateRead, h.readV, hword]⟩
    | none =>
      exact ⟨_, .raises .stateNotInitialized rfl, fun t h => by
        simp only [exec, execStateRead, h.readV, hword]⟩
  | init | absorb | absorbLast | compress | stateWrite => simp [ReadsOnly, Instr.opcode] at hi

/-- Settles O36: the state a reading command leaves has the same words, so the command ends there in
the same way, which changes nothing more; INIT loads the words it has loaded. -/
theorem readingCommandsKeepTheWordsAndRepeat : Obligations.ReadingCommandsKeepTheWordsAndRepeat := by
  refine ⟨fun i s t hi hexec => ?_, fun p s t hexec => ?_⟩
  · obtain ⟨f, hf, hrun⟩ := exec_of_readsOnly hi s
    rw [hrun s ⟨rfl, rfl, rfl, rfl, rfl⟩] at hexec
    cases hexec
    have hsame := hf.sameWords s
    exact ⟨hsame.v0, hsame.v1, hsame.v2, hsame.v3, by rw [hrun _ hsame, hf.idempotent]⟩
  · cases hexec
    rfl

end Sys2Proof
end

section
/-! PROOFS. The decoder and the encoder (30_encoding.md R61, R67): which words decode, and that each of
the two functions inverts the other. -/

namespace Sys2Proof

open Sys2Proof.Machine Sys2Proof.Spec

/-! ## Decoding what the encoder writes -/

theorem encodedFields (i : Instr) : Laws.EncodedFields.Statement i := by
  cases i with
  | init plen p => exact Laws.EncodedFields.init plen p
  | absorb plen c p => exact Laws.EncodedFields.absorb plen c p
  | absorbLast plen c tlen p => exact Laws.EncodedFields.absorbLast plen c tlen p
  | compress n => exact Laws.EncodedFields.compress n
  | finalize d => exact Laws.EncodedFields.finalize d
  | rotl plen amount p => exact Laws.EncodedFields.rotl plen amount p
  | accelQuery => exact Laws.EncodedFields.accelQuery
  | stateRead sel => exact Laws.EncodedFields.stateRead sel
  | stateWrite plen sel p => exact Laws.EncodedFields.stateWrite plen sel p

theorem plenFits_iff (plen : Nat) : plenFits plen = true ↔ plen % 32 = plen := by
  simp [plenFits]

theorem cntFits_iff (cnt : Nat) : cntFits cnt = true ↔ cnt % 256 = cnt := by
  simp [cntFits]

theorem VReg.ofCnt_index_mod (r : VReg) : VReg.ofCnt (r.index % 256) = some r := by
  cases r <;> rfl

/-- The operands of a well-formed instruction are read back from its word: a count or length that fits
its field is its own remainder there, and the fields the row does not use are packed as 0. -/
theorem decodeOperands_encode {i : Instr} (hwf : i.wellFormed = true) :
    decodeOperands i.opcode (encode i).1 (encode i).2 = .ok i := by
  cases i with
  | stateRead sel | stateWrite plen sel p =>
    simp_all [Instr.wellFormed, plenFits_iff, Instr.opcode, encode, decodeOperands,
      VReg.ofCnt_index_mod]
  | _ =>
    simp_all [Instr.wellFormed, plenFits_iff, cntFits_iff, Instr.opcode, encode, decodeOperands]

/-- Settles O1: the packed word has the fields of the instruction, and its operands are read back. -/
theorem decodeInvertsEncode : Obligations.DecodeInvertsEncode := by
  intro i hwf
  obtain ⟨hop, hrsv, -⟩ := encodedFields i
  exact (decode_eq_ok_iff _ _ i).2 ⟨hop, hrsv, decodeOperands_encode hwf⟩

/-! ## Encoding what the decoder reads -/

theorem plenFits_plenField (cmd : CmdWord) : plenFits (plenField cmd) = true :=
  decide_eq_true (plenField_lt cmd)

theorem cntFits_cntField (cmd : CmdWord) : cntFits (cntField cmd) = true :=
  decide_eq_true (cntField_lt cmd)

theorem wellFormed_of_decodeOperands {op : Opcode} {cmd : CmdWord} {p : Payload} {i : Instr}
    (h : decodeOperands op cmd p = .ok i) : i.wellFormed = true := by
  cases op <;> simp only [decodeOperands] at h <;> (repeat' split at h) <;> cases h <;>
    simp [Instr.wellFormed, plenFits_plenField, cntFits_cntField]

/-- The instruction the operands are read to carries each field its row uses; the others are 0 in both
words. -/
theorem encode_of_decodeOperands {op : Opcode} {cmd : CmdWord} {p : Payload} {i : Instr}
    (h : decodeOperands op cmd p = .ok i) :
    (encode i).1 = packCmd (tlenField cmd) (cntField cmd) (plenField cmd) op.code := by
  cases op <;> simp only [decodeOperands] at h <;> (repeat' split at h) <;> cases h <;>
    simp_all [encode, Opcode.code, VReg.ofCnt_eq_some_iff]

theorem payload?_withPayload {i : Instr} {p q : Payload} (h : (i.withPayload p).payload? = some q) :
    q = p := by
  cases i <;> simp_all [Instr.withPayload, Instr.payload?]

/-- Settles O2: the word has RSV 0, so it is packed from its fields, and those are the operands. -/
theorem encodeInvertsDecode : Obligations.EncodeInvertsDecode := by
  intro cmd p i hdec
  obtain ⟨hop, hrsv, hops⟩ := (decode_eq_ok_iff cmd p i).1 hdec
  obtain ⟨-, -, hcarried⟩ := encodedFields i
  refine ⟨wellFormed_of_decodeOperands hops, ?_, fun q hq => ?_⟩
  · rw [encode_of_decodeOperands hops, ← hop, packCmd_fields cmd hrsv]
  · have hqp : q = p := payload?_withPayload (i := i) (by rwa [withPayload_of_decode hdec])
    subst hqp
    exact ⟨rfl, hcarried q hq⟩

end Sys2Proof
end

section
/-! PROOFS. Which words decode (30_encoding.md R67) and which do not (R68): those whose OP names a
command, whose RSV is 0, and whose unused fields are 0. -/

namespace Sys2Proof

open Sys2Proof.Machine Sys2Proof.Spec

/-! ## The words that decode -/

/-- The fields the row of a command marks 'must 0' are 0 (30_encoding.md R67). -/
def Opcode.UnusedFieldsZero (cmd : CmdWord) : Opcode → Prop
  | .init => cntField cmd = 0 ∧ tlenField cmd = 0
  | .absorb | .rotl => tlenField cmd = 0
  | .absorbLast => True
  | .compress | .finalize => plenField cmd = 0 ∧ tlenField cmd = 0
  | .accelQuery => plenField cmd = 0 ∧ cntField cmd = 0 ∧ tlenField cmd = 0
  | .stateRead => plenField cmd = 0 ∧ cntField cmd < 4 ∧ tlenField cmd = 0
  | .stateWrite => cntField cmd < 4 ∧ tlenField cmd = 0

theorem exists_decodeOperands_iff (op : Opcode) (cmd : CmdWord) (p : Payload) :
    (∃ i, decodeOperands op cmd p = .ok i) ↔ op.UnusedFieldsZero cmd := by
  cases op with
  | stateRead | stateWrite =>
    cases hsel : VReg.ofCnt (cntField cmd) with
    | none =>
      have hcnt := (VReg.ofCnt_eq_none_iff _).1 hsel
      simp [decodeOperands, hsel, Opcode.UnusedFieldsZero, hcnt]
    | some sel =>
      have hcnt : cntField cmd < 4 := (VReg.ofCnt_eq_some_iff _ _).1 hsel ▸ sel.index_lt
      simp only [decodeOperands, hsel, Opcode.UnusedFieldsZero, hcnt, true_and]
      split <;> simp_all
  | absorbLast => exact iff_of_true ⟨_, rfl⟩ trivial
  | _ =>
    simp only [decodeOperands, Opcode.UnusedFieldsZero]
    split <;> simp_all

/-- A word decodes to a command exactly when OP is its code, RSV is 0 and the unused fields of its row
are 0. -/
theorem exists_decode_iff (op : Opcode) (cmd : CmdWord) (p : Payload) :
    (∃ i, decode cmd p = .ok i ∧ i.opcode = op) ↔
      opField cmd = op.code ∧ rsvField cmd = 0 ∧ op.UnusedFieldsZero cmd := by
  rw [← exists_decodeOperands_iff op cmd p]
  constructor
  · rintro ⟨i, hdec, rfl⟩
    obtain ⟨hop, hrsv, hops⟩ := (decode_eq_ok_iff cmd p i).1 hdec
    exact ⟨hop, hrsv, i, hops⟩
  · rintro ⟨hop, hrsv, i, hops⟩
    have hi := opcode_of_decodeOperands hops
    subst hi
    exact ⟨i, (decode_eq_ok_iff cmd p i).2 ⟨hop, hrsv, hops⟩, rfl⟩

/-! ## Mask and match -/

/-- Two command words are equal when their five fields are. -/
theorem cmdWord_eq_iff_fields (a b : CmdWord) : a = b ↔
    opField a = opField b ∧ plenField a = plenField b ∧ rsvField a = rsvField b ∧
      cntField a = cntField b ∧ (tlenField a).toNat = (tlenField b).toNat := by
  constructor
  · rintro rfl
    exact ⟨rfl, rfl, rfl, rfl, rfl⟩
  · simp only [opField_eq_mod, plenField_eq_digit, rsvField_eq_digit, cntField_eq_digit,
      toNat_tlenField]
    intro h
    apply BitVec.eq_of_toNat_eq
    omega

/-- AND acts on each field alone. -/
theorem and_eq_iff_fields (cmd mask pattern : CmdWord) : cmd &&& mask = pattern ↔
    opField cmd &&& opField mask = opField pattern ∧
    plenField cmd &&& plenField mask = plenField pattern ∧
    rsvField cmd &&& rsvField mask = rsvField pattern ∧
    cntField cmd &&& cntField mask = cntField pattern ∧
    (tlenField cmd).toNat &&& (tlenField mask).toNat = (tlenField pattern).toNat := by
  rw [cmdWord_eq_iff_fields]
  simp only [opField, plenField, rsvField, cntField, tlenField, BitVec.extractLsb'_and,
    BitVec.toNat_and]

/-- The PLEN, CNT and TLEN fields of a row's mask: all ones where the row marks the field 'must 0', the
high six bits of CNT where it holds a selector (30_encoding.md R67). -/
def Opcode.fieldMasks : Opcode → Nat × Nat × Nat
  | .init => (0, 255, 255)
  | .absorb | .rotl => (0, 0, 255)
  | .absorbLast => (0, 0, 0)
  | .compress | .finalize => (31, 0, 255)
  | .accelQuery => (31, 255, 255)
  | .stateRead => (31, 252, 255)
  | .stateWrite => (0, 252, 255)

theorem fields_of_mask : ∀ row ∈ opcodeTable,
    opField row.mask = 15 ∧ rsvField row.mask = 127 ∧
    (plenField row.mask, cntField row.mask, (tlenField row.mask).toNat) = row.opcode.fieldMasks := by
  decide

theorem fields_of_pattern : ∀ row ∈ opcodeTable,
    opField row.pattern = row.opcode.code ∧ rsvField row.pattern = 0 ∧
    plenField row.pattern = 0 ∧ cntField row.pattern = 0 ∧ (tlenField row.pattern).toNat = 0 := by
  decide

theorem and_252_eq_zero_iff {k : Nat} (hk : k < 256) : k &&& 252 = 0 ↔ k < 4 :=
  (by decide +kernel : ∀ k < 256, k &&& 252 = 0 ↔ k < 4) k hk

/-- 30_encoding.md R67: mask and match ask for the row's OP, RSV 0, and its unused fields 0. -/
theorem and_mask_eq_pattern_iff (cmd : CmdWord) {row : OpcodeRow} (hrow : row ∈ opcodeTable) :
    cmd &&& row.mask = row.pattern ↔
      opField cmd = row.opcode.code ∧ rsvField cmd = 0 ∧ row.opcode.UnusedFieldsZero cmd := by
  obtain ⟨hopMask, hrsvMask, hmasks⟩ := fields_of_mask row hrow
  obtain ⟨hop, hrsv, hplen, hcnt, htlen⟩ := fields_of_pattern row hrow
  have whole : ∀ {k n : Nat}, k < 2 ^ n → k &&& (2 ^ n - 1) = k := Nat.and_two_pow_sub_one_of_lt_two_pow
  have hop' : opField cmd &&& 15 = opField cmd := whole (n := 4) (opField_lt cmd)
  have hplen' : plenField cmd &&& 31 = plenField cmd := whole (n := 5) (plenField_lt cmd)
  have hrsv' : rsvField cmd &&& 127 = rsvField cmd := whole (n := 7) (BitVec.isLt _)
  have hcnt' : cntField cmd &&& 255 = cntField cmd := whole (n := 8) (cntField_lt cmd)
  have htlen' : (tlenField cmd).toNat &&& 255 = (tlenField cmd).toNat := whole (n := 8) (BitVec.isLt _)
  have hsel := and_252_eq_zero_iff (cntField_lt cmd)
  have hzero : (tlenField cmd).toNat = 0 ↔ tlenField cmd = 0 := BitVec.toNat_inj (y := 0#8)
  rw [and_eq_iff_fields, hop, hrsv, hplen, hcnt, htlen, hopMask, hrsvMask, hop', hrsv']
  cases hcode : row.opcode <;>
    simp only [hcode, Opcode.fieldMasks, Prod.mk.injEq] at hmasks <;>
    simp [hmasks, Opcode.UnusedFieldsZero, hplen', hcnt', htlen', hsel, hzero, and_left_comm]

theorem opcodeRow_eq_of_opcode_eq : ∀ row ∈ opcodeTable, ∀ row' ∈ opcodeTable,
    row.opcode = row'.opcode → row = row' := by
  decide

/-- Settles O3: mask and match say of a word what the decoder asks of it, and a word decodes to one
command. -/
theorem wordSelectsRowByMaskAndMatch : Obligations.WordSelectsRowByMaskAndMatch := by
  have selects : ∀ (cmd : CmdWord) (p : Payload) (row : OpcodeRow), row ∈ opcodeTable →
      (cmd &&& row.mask = row.pattern ↔ ∃ i, decode cmd p = .ok i ∧ i.opcode = row.opcode) :=
    fun cmd p row hrow => by rw [exists_decode_iff, and_mask_eq_pattern_iff cmd hrow]
  refine ⟨selects, fun cmd row row' hrow hrow' h h' => ?_⟩
  obtain ⟨i, hdec, hi⟩ := (selects cmd zeroPayload row hrow).1 h
  obtain ⟨i', hdec', hi'⟩ := (selects cmd zeroPayload row' hrow').1 h'
  have hsame : i = i' := Except.ok.inj (hdec.symm.trans hdec')
  exact opcodeRow_eq_of_opcode_eq row hrow row' hrow' (by rw [← hi, ← hi', hsame])

/-! ## The words that do not decode -/

theorem illegalWord_of_ofCode_eq_none {cmd : CmdWord} (h : Opcode.ofCode (opField cmd) = none) :
    IllegalWord cmd := by
  rcases (Opcode.ofCode_eq_none_iff _).1 h with hop | hop
  · exact .inl hop
  · exact .inr (.inl hop)

/-- Of the words with a command's OP, R68 lists those with RSV or an unused field of its row not 0. -/
theorem illegalWord_iff_of_opField {cmd : CmdWord} {op : Opcode} (h : opField cmd = op.code) :
    IllegalWord cmd ↔ ¬ (rsvField cmd = 0 ∧ op.UnusedFieldsZero cmd) := by
  cases op <;> simp [IllegalWord, h, Opcode.code, Opcode.UnusedFieldsZero] <;> grind

theorem illegalWord_iff_decode_error (cmd : CmdWord) (p : Payload) :
    IllegalWord cmd ↔ ∃ e, decode cmd p = .error e := by
  cases hcode : Opcode.ofCode (opField cmd) with
  | none =>
    exact iff_of_true (illegalWord_of_ofCode_eq_none hcode) ⟨_, by simp only [decode, hcode]; rfl⟩
  | some op =>
    have hop := (Opcode.ofCode_eq_some_iff _ _).1 hcode
    rw [illegalWord_iff_of_opField hop, decode_of_opField hop p, ← exists_decodeOperands_iff op cmd p]
    by_cases hrsv : rsvField cmd = 0
    · cases hops : decodeOperands op cmd p <;> simp [hrsv]
    · simp [hrsv]

theorem raise_eq_errored (e : ErrCode) (s : State) : raise e s = errored e s := by
  cases e <;> rfl

/-- A word the decoder rejects is answered with IllegalCommand in every state (30_encoding.md R68). -/
theorem answeredIllegal_of_decode_error {cmd : CmdWord} {p : Payload} {e : DecodeError}
    (h : decode cmd p = .error e) : AnsweredIllegal cmd p := by
  intro s rest hnext
  rw [step_of_command hnext, runCommand, h, ← raise_eq_errored]

/-- Settles O4: the decoder rejects exactly the words of R68, and a step answers a rejected word by
raising IllegalCommand. -/
theorem illegalEncodingsRaiseIllegalCommand : Obligations.IllegalEncodingsRaiseIllegalCommand := by
  refine ⟨illegalWord_iff_decode_error, fun cmd p h => ?_, .inl rfl⟩
  obtain ⟨e, hdec⟩ := (illegalWord_iff_decode_error cmd p).1 h
  exact answeredIllegal_of_decode_error hdec

end Sys2Proof
end

section
/-! PROOFS. The fields of a command word, sample words, and the step that runs a decoded word. -/

namespace Sys2Proof

open Sys2Proof.Machine Sys2Proof.Spec

/-- Settles O5: the fields are the digits of the word in the mixed base of the field widths. -/
theorem fieldsAreTheDigitsOfTheWord : Obligations.FieldsAreTheDigitsOfTheWord := by
  intro cmd
  refine ⟨?_, opField_lt cmd, plenField_lt cmd, BitVec.isLt _, cntField_lt cmd, selBits_toNat cmd⟩
  rw [opField_eq_mod, plenField_eq_digit, rsvField_eq_digit, cntField_eq_digit, toNat_tlenField]
  omega

/-- Settles O7: each word's fields are literals, so the decoder's tests evaluate. -/
theorem sampleWordsDecode : Obligations.SampleWordsDecode :=
  fun _ => ⟨rfl, rfl, rfl, rfl, rfl, rfl, rfl, rfl, rfl, rfl, rfl⟩

/-- Settles O10: a step takes the command off the list and runs what it decodes to. -/
theorem stepRunsDecodedInstruction : Obligations.StepRunsDecodedInstruction := by
  intro s cmd p rest i hnext hdec
  rw [step_of_command hnext, runCommand, hdec]

end Sys2Proof
end

section
/-! PROOFS. What the assembler makes of a parsed statement (30_encoding.md R70, R71). -/

namespace Sys2Proof

open Sys2Proof.Machine Sys2Proof.Spec

/-! ## Payload bytes -/

theorem getElem_padPayload (bytes : List Byte) (i : Fin 16) :
    (padPayload bytes)[i.val] = if h : i.val < bytes.length then bytes[i.val] else 0x00#8 := by
  simp only [padPayload, Vector.getElem_ofFn]
  split <;> simp_all

theorem padPayload_nil : padPayload [] = zeroPayload := by
  decide

theorem getElem_padPayload_valueBytes (x : Word) (i : Fin 8) :
    (padPayload (valueBytes x))[i.val] = x.extractLsb' (8 * i.val) 8 := by
  simp [padPayload, valueBytes, List.getD_eq_getElem?_getD]

/-- Two words with the same eight bytes are the same word. -/
theorem word_ext_bytes {x y : Word}
    (h : ∀ i : Fin 8, x.extractLsb' (8 * i.val) 8 = y.extractLsb' (8 * i.val) 8) : x = y := by
  apply BitVec.eq_of_getLsbD_eq
  intro k hk
  have hbyte := congrArg (·.getLsbD (k % 8)) (h ⟨k / 8, by omega⟩)
  simpa [BitVec.getLsbD_extractLsb', Nat.mod_lt, Nat.div_add_mod] using hbyte

/-- The bytes the assembler writes for a 64-bit operand are read back as it (20_memory.md R42). -/
theorem le64_valueBytes (x : Word) : le64 (payloadLow (padPayload (valueBytes x))) = x :=
  word_ext_bytes fun i => by
    rw [extractLsb'_le64, getElem_payloadLow, getElem_padPayload_valueBytes]

/-! ## One statement -/

/-- A statement that is no pseudo-instruction assembles to its own command. -/
theorem assemble_of_expand_self {stmt : AsmStmt} (h : expand stmt = some [stmt]) :
    assemble stmt = (assembleCore stmt).map ([·]) := by
  simp only [assemble, h, Option.bind_some, List.mapM_cons, List.mapM_nil]
  cases assembleCore stmt <;> rfl

/-- A statement whose arm of `assembleCore` packs fields in their ranges sets those fields. -/
theorem assemblesTo_of_packed {stmt : AsmStmt} {op plen cnt tlen : Nat} {p : Payload}
    (hcore : assembleCore stmt = some (packCmd (BitVec.ofNat 8 tlen) cnt plen op, p))
    (hrange : op < 16 ∧ plen < 32 ∧ cnt < 256 ∧ tlen < 256)
    (hself : expand stmt = some [stmt] := by rfl) : AssemblesTo stmt op plen cnt tlen p := by
  obtain ⟨hop, hplen, hcnt, htlen⟩ := hrange
  exact ⟨_, by rw [assemble_of_expand_self hself, hcore]; rfl, by simpa using hop,
    by simpa using hplen, by simp, by simpa using hcnt, by simpa using htlen⟩

theorem assemble_eq_none_of_refused {stmt : AsmStmt} (hcore : assembleCore stmt = none)
    (hself : expand stmt = some [stmt] := by rfl) : assemble stmt = none := by
  rw [assemble_of_expand_self hself, hcore]
  rfl

theorem assemble_raw {bytes : List Byte} (h : bytes.length ≤ 16) (cmd : CmdWord) :
    assemble (.raw cmd bytes) = some [(cmd, padPayload bytes)] := by
  rw [assemble_of_expand_self rfl, assembleCore, if_pos h]
  rfl

/-- Settles O8: each statement is its own expansion, and its arm of `assembleCore` packs the fields of
R70's table when the operands are in range and refuses them otherwise. -/
theorem assemblerSetsTheFieldsOfEachLine : Obligations.AssemblerSetsTheFieldsOfEachLine := by
  unfold Obligations.AssemblerSetsTheFieldsOfEachLine
  rw [padPayload_nil]
  exact
    ⟨fun key hkey => assemblesTo_of_packed (if_pos hkey) (by omega),
    fun c block hc hblock => assemblesTo_of_packed (if_pos ⟨hc, hblock⟩) (by omega),
    fun c tlen rem hc htlen hrem => assemblesTo_of_packed (if_pos ⟨hc, htlen, hrem⟩) (by omega),
    fun n hn => assemblesTo_of_packed (if_pos hn) (by omega),
    fun d hd => assemblesTo_of_packed (if_pos hd) (by omega),
    fun amount x hlow hhigh => assemblesTo_of_packed (if_pos ⟨hlow, hhigh⟩) (by omega),
    assemblesTo_of_packed rfl (by omega),
    fun sel hsel => assemblesTo_of_packed (if_pos hsel) (by omega),
    fun sel x hsel => assemblesTo_of_packed (if_pos hsel) (by omega),
    le64_valueBytes, getElem_padPayload, fun cmd bytes hbytes => assemble_raw hbytes cmd,
    fun key hkey => ⟨assemble_eq_none_of_refused (if_neg (by omega)),
      fun cmd => assemble_eq_none_of_refused (if_neg (by omega))⟩,
    fun c block h => assemble_eq_none_of_refused (if_neg (by omega)),
    fun c tlen rem h => assemble_eq_none_of_refused (if_neg (by omega)),
    fun n hn => ⟨assemble_eq_none_of_refused (if_neg (by omega)),
      assemble_eq_none_of_refused (if_neg (by omega))⟩,
    fun amount x h => assemble_eq_none_of_refused (if_neg (by omega)),
    fun sel x hsel => ⟨assemble_eq_none_of_refused (if_neg (by omega)),
      assemble_eq_none_of_refused (if_neg (by omega))⟩⟩

/-! ## The pseudo-instructions -/

theorem length_of_mem_fullBlocks {msg block : List Byte} (h : block ∈ fullBlocks msg) :
    block.length = 8 := by
  obtain ⟨j, hj, rfl⟩ := List.mem_map.1 h
  have := List.mem_range.1 hj
  simp only [List.length_take, List.length_drop]
  omega

theorem length_messageRemainder (msg : List Byte) :
    (messageRemainder msg).length = msg.length % 8 := by
  simp only [messageRemainder, List.length_drop]
  omega

/-- Statements that each assemble to a command assemble in turn to those commands. -/
theorem mapM_assembleCore_map {α : Type} (stmt : α → AsmStmt) (command : α → Command) (l : List α)
    (h : ∀ a ∈ l, assembleCore (stmt a) = some (command a)) :
    (l.map stmt).mapM assembleCore = some (l.map command) := by
  induction l with
  | nil => rfl
  | cons a l ih =>
    obtain ⟨ha, hl⟩ := List.forall_mem_cons.1 h
    simp [ha, ih hl]

/-- Settles O9: of the statements of `hash`, the key, the blocks, the remainder and L mod 256 are in
range, so each assembles to the command R136 names. -/
theorem pseudoInstructionsExpand : Obligations.PseudoInstructionsExpand := by
  refine ⟨fun c d key msg hc hd hkey => ?_, rfl, by decide⟩
  have hblocks := mapM_assembleCore_map (AsmStmt.absorb c)
    (fun block => (packCmd 0 c 8 2, padPayload block)) (fullBlocks msg)
    fun block hb => if_pos ⟨hc, (length_of_mem_fullBlocks hb).le⟩
  have hrem := length_messageRemainder msg
  have hinit : assembleCore (.init key) = some (packCmd 0 0 16 1, padPayload key) :=
    if_pos hkey.le
  have hlast : assembleCore (.absorbLast c (msg.length % 256) (messageRemainder msg)) =
      some (packCmd (BitVec.ofNat 8 (msg.length % 256)) c (msg.length % 8) 3,
        padPayload (messageRemainder msg)) := by
    rw [assembleCore, hrem, if_pos (by omega)]
  have hfinal : assembleCore (.finalize d) = some (packCmd 0 d 0 5, zeroPayload) := if_pos hd
  simp [assemble, expand, hkey, hashStatements, hashCommands, List.mapM_append, hinit, hblocks, hlast,
    hfinal]

end Sys2Proof
end

section
/-! PROOFS. The lexer and the number readers on the text the statements are written with
(30_encoding.md R70). -/

namespace Sys2Proof

open Sys2Proof.Machine Sys2Proof.Spec

/-! ## The lexer -/

/-- A character that is part of a word: no blank, comma, equals sign or bracket. -/
def isWordChar (ch : Char) : Bool := decide (ch ∉ [' ', '\t', '=', ',', '[', ']'])

/-- A non-empty run of word characters: what the lexer makes one token of. -/
abbrev IsWord (w : List Char) : Prop := w ≠ [] ∧ w.all isWordChar = true

/-- Text at which a word read so far ends. -/
def EndsWord (cs : List Char) : Prop := ∀ g, lexFrom g cs = flushWord g (lexFrom [] cs)

@[simp] theorem lexFrom_nil (g : List Char) : lexFrom g [] = flushWord g [] := rfl

@[simp] theorem lexFrom_blank (g cs : List Char) :
    lexFrom g (' ' :: cs) = flushWord g (lexFrom [] cs) := rfl

@[simp] theorem lexFrom_equals (g cs : List Char) :
    lexFrom g ('=' :: cs) = flushWord g (.equals :: lexFrom [] cs) := rfl

@[simp] theorem lexFrom_comma (g cs : List Char) :
    lexFrom g (',' :: cs) = flushWord g (.comma :: lexFrom [] cs) := rfl

@[simp] theorem lexFrom_open (g cs : List Char) :
    lexFrom g ('[' :: cs) = flushWord g (.open :: lexFrom [] cs) := rfl

@[simp] theorem lexFrom_close (g cs : List Char) :
    lexFrom g (']' :: cs) = flushWord g (.close :: lexFrom [] cs) := rfl

@[simp] theorem flushWord_nil (rest : List Token) : flushWord [] rest = rest := rfl

theorem lexFrom_wordChar {ch : Char} (h : isWordChar ch = true) (g cs : List Char) :
    lexFrom g (ch :: cs) = lexFrom (ch :: g) cs := by
  simp only [isWordChar, decide_eq_true_eq, List.mem_cons, List.not_mem_nil, or_false, not_or] at h
  obtain ⟨hblank, htab, hequals, hcomma, hopen, hclose⟩ := h
  simp [lexFrom, hblank, htab, hequals, hcomma, hopen, hclose]

theorem lexFrom_wordChars {w : List Char} (h : w.all isWordChar = true) (g cs : List Char) :
    lexFrom g (w ++ cs) = lexFrom (w.reverse ++ g) cs := by
  induction w generalizing g with
  | nil => rfl
  | cons ch w ih =>
    simp only [List.all_cons, Bool.and_eq_true] at h
    obtain ⟨hch, hw⟩ := h
    rw [List.cons_append, lexFrom_wordChar hch, ih hw]
    simp

theorem endsWord_nil : EndsWord [] := fun _ => rfl
theorem endsWord_blank (cs : List Char) : EndsWord (' ' :: cs) := fun _ => rfl
theorem endsWord_equals (cs : List Char) : EndsWord ('=' :: cs) := fun _ => rfl
theorem endsWord_comma (cs : List Char) : EndsWord (',' :: cs) := fun _ => rfl
theorem endsWord_close (cs : List Char) : EndsWord (']' :: cs) := fun _ => rfl

/-- A word and then text that ends it is one token. -/
theorem lexFrom_word {w cs : List Char} (hw : IsWord w) (hcs : EndsWord cs) :
    lexFrom [] (w ++ cs) = .word w :: lexFrom [] cs := by
  rw [lexFrom_wordChars hw.2, List.append_nil, hcs, flushWord,
    if_neg (mt List.reverse_eq_nil_iff.1 hw.1), List.reverse_reverse]

/-! ## Digits -/

theorem digitsFrom_append (base : Nat) (digit : Char → Option Nat) (cs ds : List Char) (v : Nat) :
    digitsFrom base digit v (cs ++ ds) =
      (digitsFrom base digit v cs).bind fun k => digitsFrom base digit k ds := by
  induction cs generalizing v with
  | nil => rfl
  | cons ch cs ih =>
    simp only [List.cons_append, digitsFrom]
    cases digit ch with
    | none => rfl
    | some k => exact ih _

theorem hexDigit_digitChar : ∀ k < 16, hexDigit (Nat.digitChar k) = some k := by
  decide

theorem isWordChar_digitChar : ∀ k < 16, isWordChar (Nat.digitChar k) = true := by
  decide

theorem decDigit_of_isDigit {ch : Char} (h : ch.isDigit = true) :
    decDigit ch = some (ch.toNat - '0'.toNat) := by
  have : '0' ≤ ch ∧ ch ≤ '9' := by simpa [Char.isDigit, Char.le_def] using h
  rw [decDigit, if_pos this]

theorem isWordChar_of_isDigit {ch : Char} (h : ch.isDigit = true) : isWordChar ch = true := by
  rw [isWordChar, decide_eq_true_eq]
  intro hsep
  fin_cases hsep <;> revert h <;> decide

/-- On decimal digits the reader computes the library's value of a digit string. -/
theorem digitsFrom_decDigit {cs : List Char} (h : ∀ ch ∈ cs, ch.isDigit = true) (v : Nat) :
    digitsFrom 10 decDigit v cs = some (Nat.ofDigitChars 10 cs v) := by
  induction cs generalizing v with
  | nil => rfl
  | cons ch cs ih =>
    obtain ⟨hch, hcs⟩ := List.forall_mem_cons.1 h
    simp only [digitsFrom, decDigit_of_isDigit hch, ih hcs, Nat.ofDigitChars_cons]
    rw [Nat.mul_comm]

theorem isDigit_of_mem_decText {n : Nat} {ch : Char} (h : ch ∈ decText n) : ch.isDigit = true :=
  Nat.isDigit_of_mem_toDigits (by decide) (by decide) h

theorem decText_ne_nil (n : Nat) : decText n ≠ [] := Nat.toDigits_ne_nil

/-- The text of a decimal number is read back as the number. -/
@[simp] theorem decNumber_decText (n : Nat) : decNumber (decText n) = some n := by
  rw [decNumber, if_neg (decText_ne_nil n), digitsFrom_decDigit fun _ => isDigit_of_mem_decText,
    decText, Nat.ofDigitChars_ten_toDigits]

theorem isWord_decText (n : Nat) : IsWord (decText n) :=
  ⟨decText_ne_nil n, List.all_eq_true.2 fun _ h => isWordChar_of_isDigit (isDigit_of_mem_decText h)⟩

@[simp] theorem length_hexText (n value : Nat) : (hexText n value).length = n := by
  induction n generalizing value with
  | zero => rfl
  | succ n ih => simp [hexText, ih]

/-- The text of `n` hexadecimal digits is read back as the number's lowest `n` digits. -/
theorem digitsFrom_hexText (n value v : Nat) :
    digitsFrom 16 hexDigit v (hexText n value) = some (v * 16 ^ n + value % 16 ^ n) := by
  induction n generalizing value with
  | zero => simp [hexText, digitsFrom, Nat.mod_one]
  | succ n ih =>
    have hdigit := hexDigit_digitChar (value % 16) (Nat.mod_lt _ (by decide))
    rw [hexText, digitsFrom_append, ih, Option.bind_some]
    simp only [digitsFrom, hdigit, Option.some.injEq]
    rw [Nat.pow_succ', Nat.mod_mul]
    ring

theorem isWordChar_of_mem_hexText {n value : Nat} {ch : Char} (h : ch ∈ hexText n value) :
    isWordChar ch = true := by
  induction n generalizing value with
  | zero => cases h
  | succ n ih =>
    rcases List.mem_append.1 h with h | h
    · exact ih h
    · rw [List.mem_singleton.1 h]
      exact isWordChar_digitChar _ (Nat.mod_lt _ (by decide))

@[simp] theorem hexByte_hexText (b : Byte) : hexByte (hexText 2 b.toNat) = some b := by
  rw [hexByte, if_pos (length_hexText 2 _), digitsFrom_hexText]
  simp [Nat.mod_eq_of_lt b.isLt]

theorem hexNumber_hexText {n value : Nat} (h : value < 16 ^ n) :
    hexNumber n ('0' :: 'x' :: hexText n value) = some value := by
  rw [hexNumber, if_pos (length_hexText n _), digitsFrom_hexText, Nat.mod_eq_of_lt h, Nat.zero_mul,
    Nat.zero_add]

theorem all_isWordChar_hexText (n value : Nat) : (hexText n value).all isWordChar = true :=
  List.all_eq_true.2 fun _ => isWordChar_of_mem_hexText

theorem isWord_hexByte (b : Byte) : IsWord (hexText 2 b.toNat) :=
  ⟨by simp [← List.length_eq_zero_iff], all_isWordChar_hexText 2 _⟩

theorem isWord_hexNumber (n value : Nat) : IsWord ('0' :: 'x' :: hexText n value) :=
  ⟨List.cons_ne_nil _ _, all_isWordChar_hexText n value⟩

end Sys2Proof
end

section
/-! PROOFS. Every line of assembly reads back as the statement it writes (30_encoding.md R70, R71): its
tokens are those of the statement, and the parser of its mnemonic reads them. -/

namespace Sys2Proof

open Sys2Proof.Machine Sys2Proof.Spec

/-! ## The tokens of a statement -/

/-- The tokens of `numberText`. -/
def numberTokens (name : List Char) (n : Nat) : List Token :=
  [.word name, .equals, .word (decText n)]

/-- The tokens of `byteListText`. -/
def byteTokens (bytes : List Byte) : List Token := bytes.map fun b => .word (hexText 2 b.toNat)

/-- The tokens of `bytesText`. -/
def bytesTokens (bytes : List Byte) : List Token := .open :: (byteTokens bytes ++ [.close])

/-- The tokens of `namedBytesText`. -/
def namedBytesTokens (name : List Char) (bytes : List Byte) : List Token :=
  .word name :: .equals :: bytesTokens bytes

/-- The tokens of `valueText`. -/
def valueTokens (n value : Nat) : List Token := [.word ('0' :: 'x' :: hexText n value)]

/-- The tokens of `operandText`. -/
def operandTokens : AsmStmt → List Token
  | .init key => bytesTokens key
  | .absorb c block => numberTokens ['c'] c ++ .comma :: bytesTokens block
  | .absorbLast c tlen rem =>
    numberTokens ['c'] c ++ .comma :: (numberTokens ['t', 'l', 'e', 'n'] tlen
      ++ .comma :: bytesTokens rem)
  | .compress n => numberTokens ['n'] n
  | .finalize d => numberTokens ['d'] d
  | .rotl amount x => numberTokens ['s'] amount ++ .comma :: valueTokens 16 x.toNat
  | .accelQuery | .sipround => []
  | .stateRead sel => numberTokens ['s', 'e', 'l'] sel
  | .stateWrite sel x => numberTokens ['s', 'e', 'l'] sel ++ .comma :: valueTokens 16 x.toNat
  | .raw cmd bytes => valueTokens 8 cmd.toNat ++ .comma :: bytesTokens bytes
  | .hash c d key msg =>
    numberTokens ['c'] c ++ .comma :: (numberTokens ['d'] d
      ++ .comma :: (namedBytesTokens ['k', 'e', 'y'] key
        ++ .comma :: namedBytesTokens ['m', 's', 'g'] msg))

/-- The lexer cuts the text into the tokens, whatever text that ends a word follows. -/
def Lexes (text : List Char) (tokens : List Token) : Prop :=
  ∀ cs, EndsWord cs → lexFrom [] (text ++ cs) = tokens ++ lexFrom [] cs

theorem lexes_nil : Lexes [] [] := fun _ _ => rfl

theorem lexes_word {w : List Char} (hw : IsWord w) : Lexes w [.word w] :=
  fun _ hcs => lexFrom_word hw hcs

theorem Lexes.blank {text : List Char} {tokens : List Token} (h : Lexes text tokens) :
    Lexes (' ' :: text) tokens := h

theorem Lexes.append {text text' : List Char} {tokens tokens' : List Token} (h : Lexes text tokens)
    (h' : Lexes text' tokens') (hends : ∀ cs, EndsWord (text' ++ cs)) :
    Lexes (text ++ text') (tokens ++ tokens') := by
  intro cs hcs
  rw [List.append_assoc, h _ (hends cs), h' cs hcs, List.append_assoc]

theorem Lexes.append_comma {text text' : List Char} {tokens tokens' : List Token}
    (h : Lexes text tokens) (h' : Lexes text' tokens') :
    Lexes (text ++ ',' :: text') (tokens ++ .comma :: tokens') :=
  h.append (fun cs hcs => congrArg (Token.comma :: ·) (h' cs hcs)) fun _ => endsWord_comma _

theorem Lexes.append_equals {text text' : List Char} {tokens tokens' : List Token}
    (h : Lexes text tokens) (h' : Lexes text' tokens') :
    Lexes (text ++ '=' :: text') (tokens ++ .equals :: tokens') :=
  h.append (fun cs hcs => congrArg (Token.equals :: ·) (h' cs hcs)) fun _ => endsWord_equals _

theorem lexes_numberText {name : List Char} (hname : IsWord name) (n : Nat) :
    Lexes (numberText name n) (numberTokens name n) :=
  ((lexes_word hname).append_equals (lexes_word (isWord_decText n))).blank

theorem lexFrom_byteListText (bytes : List Byte) (cs : List Char) :
    lexFrom [] (byteListText bytes ++ ']' :: cs) = byteTokens bytes ++ .close :: lexFrom [] cs := by
  induction bytes with
  | nil => rfl
  | cons b bytes ih =>
    cases bytes with
    | nil => exact lexFrom_word (isWord_hexByte b) (endsWord_close cs)
    | cons c bytes =>
      rw [byteListText, List.append_assoc]
      exact (lexFrom_word (isWord_hexByte b) (endsWord_blank _)).trans (congrArg _ ih)

theorem lexes_bytesText (bytes : List Byte) : Lexes (bytesText bytes) (bytesTokens bytes) := by
  intro cs _
  simp only [bytesText, bytesTokens, List.cons_append, List.append_assoc, List.nil_append,
    lexFrom_open, flushWord_nil, lexFrom_byteListText]

theorem lexes_namedBytesText {name : List Char} (hname : IsWord name) (bytes : List Byte) :
    Lexes (namedBytesText name bytes) (namedBytesTokens name bytes) :=
  ((lexes_word hname).append_equals (lexes_bytesText bytes)).blank

theorem lexes_valueText (n value : Nat) : Lexes (valueText n value) (valueTokens n value) :=
  (lexes_word (isWord_hexNumber n value)).blank

theorem lexes_operandText (stmt : AsmStmt) : Lexes (operandText stmt) (operandTokens stmt) := by
  have number : ∀ {name : List Char} (n : Nat), IsWord name →
    Lexes (numberText name n) (numberTokens name n) := fun n h => lexes_numberText h n
  cases stmt with
  | init key => exact (lexes_bytesText key).blank
  | absorb c block => exact (number c (by decide)).append_comma (lexes_bytesText block).blank
  | absorbLast c tlen rem =>
    exact (number c (by decide)).append_comma
      ((number tlen (by decide)).append_comma (lexes_bytesText rem).blank)
  | compress n => exact number n (by decide)
  | finalize d => exact number d (by decide)
  | rotl amount x => exact (number amount (by decide)).append_comma (lexes_valueText 16 x.toNat)
  | accelQuery => exact lexes_nil
  | stateRead sel => exact number sel (by decide)
  | stateWrite sel x => exact (number sel (by decide)).append_comma (lexes_valueText 16 x.toNat)
  | raw cmd bytes => exact (lexes_valueText 8 cmd.toNat).append_comma (lexes_bytesText bytes).blank
  | sipround => exact lexes_nil
  | hash c d key msg =>
    exact (number c (by decide)).append_comma ((number d (by decide)).append_comma
      ((lexes_namedBytesText (by decide) key).append_comma (lexes_namedBytesText (by decide) msg)))

theorem endsWord_operandText (stmt : AsmStmt) : EndsWord (operandText stmt) := by
  cases stmt <;> exact fun _ => rfl

/-! ## Reading the tokens -/

@[simp] theorem namedNumber_numberTokens (name : List Char) (n : Nat) (rest : List Token) :
    namedNumber name (numberTokens name n ++ rest) = some (n, rest) := by
  simp [namedNumber, numberTokens]

@[simp] theorem commaNumber_numberTokens (name : List Char) (n : Nat) (rest : List Token) :
    commaNumber name (.comma :: (numberTokens name n ++ rest)) = some (n, rest) :=
  namedNumber_numberTokens name n rest

@[simp] theorem onlyNumber_numberTokens (name : List Char) (make : Nat → AsmStmt) (n : Nat) :
    onlyNumber name make (numberTokens name n) = some (make n) := by
  have h := namedNumber_numberTokens name n []
  rw [List.append_nil] at h
  simp [onlyNumber, h]

theorem bytesFrom_byteTokens (bytes : List Byte) (rest : List Token) :
    bytesFrom (byteTokens bytes ++ .close :: rest) = some (bytes, rest) := by
  induction bytes with
  | nil => rfl
  | cons b bytes ih =>
    simp only [byteTokens, List.map_cons, List.cons_append, bytesFrom, hexByte_hexText] at ih ⊢
    rw [ih]

@[simp] theorem lastBytes_bytesTokens (bytes : List Byte) :
    lastBytes (bytesTokens bytes) = some bytes := by
  simp [lastBytes, bytesTokens, bytesFrom_byteTokens]

@[simp] theorem commaBytes_bytesTokens (bytes : List Byte) :
    commaBytes (.comma :: bytesTokens bytes) = some bytes := lastBytes_bytesTokens bytes

@[simp] theorem commaNamedBytes_namedBytesTokens (name : List Char) (bytes : List Byte)
    (rest : List Token) :
    commaNamedBytes name (.comma :: (namedBytesTokens name bytes ++ rest)) = some (bytes, rest) := by
  simp [commaNamedBytes, namedBytesTokens, bytesTokens, bytesFrom_byteTokens]

@[simp] theorem commaValue_valueTokens (x : Word) :
    commaValue (.comma :: valueTokens 16 x.toNat) = some x := by
  simp [commaValue, valueTokens, hexNumber_hexText (n := 16) x.isLt]

@[simp] theorem numberValue_numberTokens (name : List Char) (make : Nat → Word → AsmStmt) (n : Nat)
    (x : Word) : numberValue name make (numberTokens name n ++ .comma :: valueTokens 16 x.toNat) =
      some (make n x) := by
  simp [numberValue]

theorem absorbLastOperands_operandTokens (c tlen : Nat) (rem : List Byte) :
    absorbLastOperands (operandTokens (.absorbLast c tlen rem)) = some (.absorbLast c tlen rem) := by
  simp [absorbLastOperands, operandTokens]

theorem rawOperands_operandTokens (cmd : CmdWord) (bytes : List Byte) :
    rawOperands (operandTokens (.raw cmd bytes)) = some (.raw cmd bytes) := by
  simp [rawOperands, operandTokens, valueTokens, hexNumber_hexText (n := 8) cmd.isLt]

theorem hashOperands_operandTokens (c d : Nat) (key msg : List Byte) :
    hashOperands (operandTokens (.hash c d key msg)) = some (.hash c d key msg) := by
  have hmsg := commaNamedBytes_namedBytesTokens ['m', 's', 'g'] msg []
  rw [List.append_nil] at hmsg
  simp [hashOperands, operandTokens, hmsg]

/-! ## The parser of a mnemonic -/

/-- No mnemonic of the table, in either case, spells another one. -/
theorem mnemonics_distinct :
    ∀ a ∈ operandParsers.map Prod.fst, ∀ m ∈ [a, a.map Char.toUpper],
      ∀ b ∈ operandParsers.map Prod.fst, spells m b = true → b = a := by
  decide

theorem nodup_mnemonics : (operandParsers.map Prod.fst).Nodup := by
  decide

theorem spells_iff (m mnemonic : List Char) :
    spells m mnemonic = true ↔ m = mnemonic ∨ m = mnemonic.map Char.toUpper := by
  simp [spells]

/-- A line that parses is read by an entry of the table whose mnemonic it begins with. -/
theorem exists_parser_of_parseTokens {m : List Char} {rest : List Token} {stmt : AsmStmt}
    (h : parseTokens (.word m :: rest) = some stmt) :
    ∃ entry ∈ operandParsers, spells m entry.1 = true ∧ entry.2 rest = some stmt := by
  obtain ⟨entry, hfind, hread⟩ := Option.bind_eq_some_iff.1 h
  exact ⟨entry, List.mem_of_find?_eq_some hfind, by simpa using List.find?_some hfind, hread⟩

/-- A word that spells a mnemonic of the table selects its parser. -/
theorem parseTokens_of_spells {entry : List Char × (List Token → Option AsmStmt)}
    (hmem : entry ∈ operandParsers) {m : List Char} (hm : spells m entry.1 = true)
    (rest : List Token) : parseTokens (.word m :: rest) = entry.2 rest := by
  obtain ⟨found, hfind⟩ : ∃ found, operandParsers.find? (fun e => spells m e.1) = some found :=
    Option.isSome_iff_exists.1 (List.find?_isSome.2 ⟨entry, hmem, hm⟩)
  have hfound := List.mem_of_find?_eq_some hfind
  have hkey : found.1 = entry.1 :=
    mnemonics_distinct _ (List.mem_map_of_mem hmem) m (by simpa [spells_iff] using hm)
      _ (List.mem_map_of_mem hfound) (by simpa using List.find?_some hfind)
  rw [parseTokens, hfind, List.inj_on_of_nodup_map nodup_mnemonics hfound hmem hkey]
  rfl

/-- The same for an entry given by its place in the table and what it reads. -/
theorem parseTokens_eq_some {k : Nat} {entry : List Char × (List Token → Option AsmStmt)}
    (hk : operandParsers[k]? = some entry) {m : List Char} (hm : spells m entry.1 = true)
    {rest : List Token} {stmt : AsmStmt} (hread : entry.2 rest = some stmt) :
    parseTokens (.word m :: rest) = some stmt :=
  (parseTokens_of_spells (List.mem_of_getElem? hk) hm rest).trans hread

/-- A statement's mnemonic, in either case, selects a parser that reads the statement's tokens. -/
theorem parseTokens_operandTokens (stmt : AsmStmt) {m : List Char}
    (hm : spells m (mnemonicText stmt).toList = true) :
    parseTokens (.word m :: operandTokens stmt) = some stmt := by
  cases stmt with
  | init key => exact parseTokens_eq_some (k := 0) rfl hm (by simp [operandTokens])
  | absorb c block => exact parseTokens_eq_some (k := 1) rfl hm (by simp [operandTokens])
  | absorbLast c tlen rem =>
    exact parseTokens_eq_some (k := 2) rfl hm (absorbLastOperands_operandTokens c tlen rem)
  | compress n => exact parseTokens_eq_some (k := 3) rfl hm (onlyNumber_numberTokens _ _ n)
  | finalize d => exact parseTokens_eq_some (k := 4) rfl hm (onlyNumber_numberTokens _ _ d)
  | rotl amount x => exact parseTokens_eq_some (k := 5) rfl hm (numberValue_numberTokens _ _ amount x)
  | accelQuery => exact parseTokens_eq_some (k := 6) rfl hm rfl
  | stateRead sel => exact parseTokens_eq_some (k := 7) rfl hm (onlyNumber_numberTokens _ _ sel)
  | stateWrite sel x => exact parseTokens_eq_some (k := 8) rfl hm (numberValue_numberTokens _ _ sel x)
  | raw cmd bytes => exact parseTokens_eq_some (k := 9) rfl hm (rawOperands_operandTokens cmd bytes)
  | sipround => exact parseTokens_eq_some (k := 10) rfl hm rfl
  | hash c d key msg =>
    exact parseTokens_eq_some (k := 11) rfl hm (hashOperands_operandTokens c d key msg)

theorem isWord_of_spells_mnemonicText {stmt : AsmStmt} {m : List Char}
    (hm : spells m (mnemonicText stmt).toList = true) : IsWord m := by
  rw [spells_iff] at hm
  rcases hm with rfl | rfl <;> cases stmt <;> simp only [mnemonicText] <;> decide

/-- A line of a mnemonic in either case and a statement's operands assembles as the statement. -/
theorem assembleLine_operandText {stmt : AsmStmt} {m : List Char}
    (hm : spells m (mnemonicText stmt).toList = true) :
    assembleLine (String.ofList (m ++ operandText stmt)) = assemble stmt := by
  have hoperands := lexes_operandText stmt [] endsWord_nil
  rw [List.append_nil, lexFrom_nil, flushWord_nil, List.append_nil] at hoperands
  rw [assembleLine, String.toList_ofList,
    lexFrom_word (isWord_of_spells_mnemonicText hm) (endsWord_operandText stmt), hoperands,
    parseTokens_operandTokens stmt hm, Option.bind_some]

/-- Settles O48: the lexer cuts the line into the tokens of the statement, which its parser reads. -/
theorem everyLineOfAssemblyReadsBack : Obligations.EveryLineOfAssemblyReadsBack := fun _ =>
  ⟨assembleLine_operandText ((spells_iff _ _).2 (.inl rfl)),
    assembleLine_operandText ((spells_iff _ _).2 (.inr rfl))⟩

end Sys2Proof
end

section
/-! PROOFS. What the assembler refuses (30_encoding.md R70): a line whose first word is no mnemonic, and
the word `tlen` on any mnemonic but `absorb_last`. -/

namespace Sys2Proof

open Sys2Proof.Machine Sys2Proof.Spec

/-! ## Tokens without the word tlen -/

/-- The word `tlen` does not stand in the tokens. -/
def NoTlen (tokens : List Token) : Prop := .word "tlen".toList ∉ tokens

@[simp] theorem noTlen_nil : NoTlen [] := List.not_mem_nil

@[simp] theorem noTlen_word (w : List Char) (rest : List Token) :
    NoTlen (.word w :: rest) ↔ w ≠ "tlen".toList ∧ NoTlen rest := by
  rw [NoTlen, List.mem_cons, not_or, Token.word.injEq, eq_comm]
  rfl

@[simp] theorem noTlen_equals (rest : List Token) : NoTlen (.equals :: rest) ↔ NoTlen rest := by
  simp [NoTlen]

@[simp] theorem noTlen_comma (rest : List Token) : NoTlen (.comma :: rest) ↔ NoTlen rest := by
  simp [NoTlen]

@[simp] theorem noTlen_open (rest : List Token) : NoTlen (.open :: rest) ↔ NoTlen rest := by
  simp [NoTlen]

@[simp] theorem noTlen_close (rest : List Token) : NoTlen (.close :: rest) ↔ NoTlen rest := by
  simp [NoTlen]

/-- A word that is read as a number or a byte is not `tlen`, which is read as neither. -/
theorem ne_tlen_of_read {α : Type} (read : List Char → Option α) {w : List Char} {a : α}
    (h : read w = some a) (htlen : read "tlen".toList = none) : w ≠ "tlen".toList := by
  rintro rfl
  rw [htlen] at h
  cases h

/-! ## No reader but that of absorb_last passes over the word tlen -/

theorem noTlen_of_namedNumber {name : List Char} {tokens : List Token} {r : Nat × List Token}
    (h : namedNumber name tokens = some r) (hname : name ≠ "tlen".toList) (hrest : NoTlen r.2) :
    NoTlen tokens := by
  unfold namedNumber at h
  split at h
  · split_ifs at h with hw
    subst hw
    obtain ⟨k, hk, rfl⟩ := Option.map_eq_some_iff.1 h
    have hv := ne_tlen_of_read decNumber hk (by decide)
    simpa using ⟨hname, hv, hrest⟩
  · cases h

theorem noTlen_of_onlyNumber {name : List Char} {make : Nat → AsmStmt} {tokens : List Token}
    {stmt : AsmStmt} (h : onlyNumber name make tokens = some stmt) (hname : name ≠ "tlen".toList) :
    NoTlen tokens := by
  unfold onlyNumber at h
  split at h
  next k hk => exact noTlen_of_namedNumber hk hname noTlen_nil
  · cases h

theorem noTlen_of_bytesFrom {tokens : List Token} {r : List Byte × List Token}
    (h : bytesFrom tokens = some r) (hrest : NoTlen r.2) : NoTlen tokens := by
  induction tokens generalizing r with
  | nil => cases h
  | cons token tokens ih =>
    cases token with
    | close =>
      cases h
      exact (noTlen_close _).2 hrest
    | word cs =>
      simp only [bytesFrom] at h
      split at h
      next b bs after hb hbs =>
        cases h
        exact (noTlen_word _ _).2 ⟨ne_tlen_of_read hexByte hb (by decide), ih hbs hrest⟩
      · cases h
    | _ => cases h

theorem noTlen_of_lastBytes {tokens : List Token} {bytes : List Byte}
    (h : lastBytes tokens = some bytes) : NoTlen tokens := by
  unfold lastBytes at h
  split at h
  · split at h
    next bs hbs => exact (noTlen_open _).2 (noTlen_of_bytesFrom hbs noTlen_nil)
    · cases h
  · cases h

theorem noTlen_of_commaBytes {tokens : List Token} {bytes : List Byte}
    (h : commaBytes tokens = some bytes) : NoTlen tokens := by
  unfold commaBytes at h
  split at h
  · exact (noTlen_comma _).2 (noTlen_of_lastBytes h)
  · cases h

theorem noTlen_of_commaValue {tokens : List Token} {x : Word} (h : commaValue tokens = some x) :
    NoTlen tokens := by
  unfold commaValue at h
  split at h
  · obtain ⟨v, hv, -⟩ := Option.map_eq_some_iff.1 h
    simpa using ne_tlen_of_read (hexNumber 16) hv (by decide)
  · cases h

theorem noTlen_of_numberValue {name : List Char} {make : Nat → Word → AsmStmt}
    {tokens : List Token} {stmt : AsmStmt} (h : numberValue name make tokens = some stmt)
    (hname : name ≠ "tlen".toList) : NoTlen tokens := by
  obtain ⟨r, hr, h⟩ := Option.bind_eq_some_iff.1 h
  obtain ⟨x, hx, -⟩ := Option.map_eq_some_iff.1 h
  exact noTlen_of_namedNumber hr hname (noTlen_of_commaValue hx)

theorem noTlen_of_commaNumber {name : List Char} {tokens : List Token} {r : Nat × List Token}
    (h : commaNumber name tokens = some r) (hname : name ≠ "tlen".toList) (hrest : NoTlen r.2) :
    NoTlen tokens := by
  unfold commaNumber at h
  split at h
  · exact (noTlen_comma _).2 (noTlen_of_namedNumber h hname hrest)
  · cases h

theorem noTlen_of_commaNamedBytes {name : List Char} {tokens : List Token}
    {r : List Byte × List Token} (h : commaNamedBytes name tokens = some r)
    (hname : name ≠ "tlen".toList) (hrest : NoTlen r.2) : NoTlen tokens := by
  unfold commaNamedBytes at h
  split at h
  · split_ifs at h with hw
    subst hw
    simpa using ⟨hname, noTlen_of_bytesFrom h hrest⟩
  · cases h

theorem noTlen_of_absorbOperands {tokens : List Token} {stmt : AsmStmt}
    (h : ((namedNumber ['c'] tokens).bind fun r => (commaBytes r.2).map (AsmStmt.absorb r.1)) =
      some stmt) : NoTlen tokens := by
  obtain ⟨r, hr, h⟩ := Option.bind_eq_some_iff.1 h
  obtain ⟨bytes, hbytes, -⟩ := Option.map_eq_some_iff.1 h
  exact noTlen_of_namedNumber hr (by decide) (noTlen_of_commaBytes hbytes)

theorem noTlen_of_hashOperands {tokens : List Token} {stmt : AsmStmt}
    (h : hashOperands tokens = some stmt) : NoTlen tokens := by
  obtain ⟨c, hc, h⟩ := Option.bind_eq_some_iff.1 h
  obtain ⟨d, hd, h⟩ := Option.bind_eq_some_iff.1 h
  obtain ⟨key, hkey, h⟩ := Option.bind_eq_some_iff.1 h
  obtain ⟨msg, hmsg, h⟩ := Option.bind_eq_some_iff.1 h
  have hend : NoTlen msg.2 := by
    split_ifs at h with hnil
    rw [hnil]
    exact noTlen_nil
  exact noTlen_of_namedNumber hc (by decide) <| noTlen_of_commaNumber hd (by decide) <|
    noTlen_of_commaNamedBytes hkey (by decide) <| noTlen_of_commaNamedBytes hmsg (by decide) hend

theorem noTlen_of_rawOperands {tokens : List Token} {stmt : AsmStmt}
    (h : rawOperands tokens = some stmt) : NoTlen tokens := by
  unfold rawOperands at h
  split at h
  next cs rest =>
    obtain ⟨w, hw, h⟩ := Option.bind_eq_some_iff.1 h
    refine (noTlen_word _ _).2 ⟨ne_tlen_of_read (hexNumber 8) hw (by decide), ?_⟩
    split_ifs at h with hnil
    · rw [hnil]
      exact noTlen_nil
    · obtain ⟨bytes, hbytes, -⟩ := Option.map_eq_some_iff.1 h
      exact noTlen_of_commaBytes hbytes
  · cases h

theorem noTlen_of_noOperands {tokens : List Token} {stmt stmt' : AsmStmt}
    (h : noOperands stmt tokens = some stmt') : NoTlen tokens := by
  unfold noOperands at h
  split_ifs at h with hnil
  rw [hnil]
  exact noTlen_nil

/-- What a parser of the table reads holds no `tlen`, unless it is the parser of `absorb_last`. -/
theorem noTlen_of_operandParser {entry : List Char × (List Token → Option AsmStmt)}
    (hentry : entry ∈ operandParsers) (hmnemonic : entry.1 ≠ "absorb_last".toList)
    {tokens : List Token} {stmt : AsmStmt} (h : entry.2 tokens = some stmt) : NoTlen tokens := by
  fin_cases hentry
  · obtain ⟨key, hkey, -⟩ := Option.map_eq_some_iff.1 h
    exact noTlen_of_lastBytes hkey
  · exact noTlen_of_absorbOperands h
  · exact absurd rfl hmnemonic
  · exact noTlen_of_onlyNumber h (by decide)
  · exact noTlen_of_onlyNumber h (by decide)
  · exact noTlen_of_numberValue h (by decide)
  · exact noTlen_of_noOperands h
  · exact noTlen_of_onlyNumber h (by decide)
  · exact noTlen_of_numberValue h (by decide)
  · exact noTlen_of_rawOperands h
  · exact noTlen_of_noOperands h
  · exact noTlen_of_hashOperands h

/-! ## Lines that do not parse -/

theorem assembleLine_eq_none {line : String} {tokens : List Token}
    (hlex : lexFrom [] line.toList = tokens) (h : ∀ stmt, parseTokens tokens ≠ some stmt) :
    assembleLine line = none := by
  rw [assembleLine, hlex, Option.eq_none_iff_forall_ne_some.2 h]
  rfl

/-- One statement for each mnemonic, in the order of the parser table. -/
def statementOfEachMnemonic : List AsmStmt :=
  [.init [], .absorb 0 [], .absorbLast 0 0 [], .compress 0, .finalize 0, .rotl 0 0, .accelQuery,
    .stateRead 0, .stateWrite 0 0, .raw 0 [], .sipround, .hash 0 0 [] []]

theorem mnemonics_eq : operandParsers.map Prod.fst =
    statementOfEachMnemonic.map fun stmt => (mnemonicText stmt).toList := rfl

/-- Every entry of the parser table is for the mnemonic of a statement. -/
theorem exists_mnemonicText {entry : List Char × (List Token → Option AsmStmt)}
    (h : entry ∈ operandParsers) : ∃ stmt, (mnemonicText stmt).toList = entry.1 := by
  have hkey := List.mem_map_of_mem (f := Prod.fst) h
  rw [mnemonics_eq] at hkey
  obtain ⟨stmt, -, hstmt⟩ := List.mem_map.1 hkey
  exact ⟨stmt, hstmt⟩

/-- Settles O49: the parser that reads the line is an entry of the table whose mnemonic the line begins
with; the mnemonics are those of the statements, and only `absorb_last` has a parser that reads
`tlen`. -/
theorem assemblerRefusesTlenAndUnknownMnemonics :
    Obligations.AssemblerRefusesTlenAndUnknownMnemonics := by
  refine ⟨fun line m rest hlex hlower hupper htlen => assembleLine_eq_none hlex fun stmt hparse => ?_,
    fun line m rest hlex hunknown => assembleLine_eq_none hlex fun stmt hparse => ?_⟩ <;>
    obtain ⟨entry, hentry, hspells, hread⟩ := exists_parser_of_parseTokens hparse
  · refine noTlen_of_operandParser hentry (fun habsorb => ?_) hread htlen
    rw [habsorb, spells_iff] at hspells
    exact hspells.elim hlower hupper
  · obtain ⟨stmt, hstmt⟩ := exists_mnemonicText hentry
    rw [← hstmt, spells_iff] at hspells
    exact hspells.elim (hunknown stmt).1 (hunknown stmt).2

/-! ## Worked lines -/

/-- Settles O6: each line is a literal, which the assembler evaluates. -/
theorem workedEncodingsAssemble : Obligations.WorkedEncodingsAssemble := by
  unfold Obligations.WorkedEncodingsAssemble
  decide

end Sys2Proof
end

section
/-! PROOFS. INIT, and VALID in an empty state (40_init.md R101, R102). -/

namespace Sys2Proof

open Sys2Proof.Machine Sys2Proof.Spec

theorem exec_init_of_plen_ne {plen : Nat} (hlen : plen ≠ 16) (p : Payload) (s : State) :
    exec (.init plen p) s = .next (raise .invalidKeyLength s) := by
  simp only [exec, execInit, if_neg hlen]

theorem decode_init {cmd : CmdWord} (hop : opField cmd = 0x1) (hrsv : rsvField cmd = 0)
    (hcnt : cntField cmd = 0) (htlen : tlenField cmd = 0) (p : Payload) :
    decode cmd p = .ok (.init (plenField cmd) p) :=
  (decode_eq_ok_iff _ _ _).2 ⟨hop, hrsv, if_pos ⟨hcnt, htlen⟩⟩

/-- 30_encoding.md R68: of the words with OP 1, those with RSV, CNT or TLEN not 0 are illegal. -/
theorem illegalWord_of_init {cmd : CmdWord} (hop : opField cmd = 0x1)
    (h : rsvField cmd ≠ 0 ∨ cntField cmd ≠ 0 ∨ tlenField cmd ≠ 0) : IllegalWord cmd := by
  rw [illegalWord_iff_of_opField (op := .init) hop]
  rintro ⟨hrsv, hcnt, htlen⟩
  simp [hrsv, hcnt, htlen] at h

/-- Settles O16: the loaded words and the completed state are the model's own, written out; the other
lengths fail INIT's one check; and R68 lists the words the decoder rejects. -/
theorem initLoadsTheKeyedConstants : Obligations.InitLoadsTheKeyedConstants := by
  intro p s
  refine ⟨rfl, fun plen hlen => ?_, fun cmd hop hrsv hcnt htlen => decode_init hop hrsv hcnt htlen p,
    fun cmd hop h => ?_⟩
  · rw [exec_init_of_plen_ne hlen, raise_eq_errored]
  · obtain ⟨-, answered, -⟩ := illegalEncodingsRaiseIllegalCommand
    exact answered cmd p (illegalWord_of_init hop h)

/-! ## VALID in an empty state -/

/-- No error sets a VALID bit (60_exceptions.md R203). -/
theorem valid_raise_of_empty (e : ErrCode) {s : State} (hs : s.valid = 0b0000#4) :
    (raise e s).valid = 0b0000#4 := by
  rw [State.valid_raise, hs, ite_self]

/-- Of the instructions that succeed, only INIT fills VALID: STATE_WRITE sets one bit, the others
none. -/
theorem opcode_eq_init_of_validAfter_empty {i : Instr} (h : i.validAfter 0b0000#4 = 0b1111#4) :
    i.opcode = .init := by
  cases i with
  | init plen p => rfl
  | stateWrite plen sel p => cases sel <;> simp [Instr.validAfter, VReg.index] at h
  | _ => simp [Instr.validAfter] at h

theorem eq_init_of_error_eq_ok {i : Instr} {valid : BitVec 4} (hop : i.opcode = .init)
    (hpass : i.error valid = .ok) : ∃ p, i = .init 16 p := by
  cases i with
  | init plen p =>
    have hlen : plen = 16 := by
      by_contra hne
      simp [Instr.error, hne] at hpass
    exact ⟨p, by rw [hlen]⟩
  | _ => cases hop

theorem needsAllWords_empty : needsAllWords 0b0000#4 ≠ .ok := by decide

/-- The commands that work on the whole state fail their check when it is empty (60_exceptions.md
R202, steps 4 and 6). -/
theorem error_ne_ok_of_empty {i : Instr}
    (hop : i.opcode = .absorb ∨ i.opcode = .absorbLast ∨ i.opcode = .compress ∨
      i.opcode = .finalize) : i.error 0b0000#4 ≠ .ok := by
  cases i with
  | absorb | absorbLast =>
    simp only [Instr.error]
    split
    · exact needsAllWords_empty
    · decide
  | compress | finalize => exact needsAllWords_empty
  | _ => simp [Instr.opcode] at hop

/-- Settles O37: an error leaves an empty state empty; an instruction that succeeds and fills VALID is
INIT, whose check asks for PLEN 16; and the four commands do not pass their check. -/
theorem onlyInitMakesAnEmptyStateValid : Obligations.OnlyInitMakesAnEmptyStateValid := by
  refine ⟨fun i s t hrun hs ht => ?_, fun i s t hrun hs hop => ?_⟩
  · cases exec_effect i s with
    | raises hfail hexec =>
      cases hrun.symm.trans hexec
      rw [valid_raise_of_empty _ hs] at ht
      exact absurd ht (by decide)
    | completes r u hpass hexec hresult hvalid =>
      cases hrun.symm.trans hexec
      have hfull : i.validAfter 0b0000#4 = 0b1111#4 := by
        rw [← hs, ← hvalid, ← State.valid_complete r u, ht]
      exact eq_init_of_error_eq_ok (opcode_eq_init_of_validAfter_empty hfull) hpass
  · have hne : i.error s.valid ≠ .ok := hs ▸ error_ne_ok_of_empty hop
    cases exec_effect i s with
    | raises hfail hexec =>
      cases hrun.symm.trans hexec
      exact ⟨hfail, valid_raise_of_empty _ hs⟩
    | completes r u hpass hexec hresult hvalid => exact absurd hpass hne

end Sys2Proof
end

section
/-! PROOFS. SipRound and Compress as functions of a state value (41_sipround.md R110 to R113, R116). -/

namespace Sys2Proof

open Sys2Proof.Machine

/-- Settles O40: the model's steps are the equations, its rotation at the six amounts the rotation of
64-bit words. -/
theorem sipRoundFollowsItsEightSteps : Obligations.SipRoundFollowsItsEightSteps := by
  unfold Obligations.SipRoundFollowsItsEightSteps
  intros
  subst_vars
  simp [sipRound, rotl64_eq_rotateLeft]

/-! ## The inverse round -/

/-- Rotating on by the rest of the 64 positions gives the word back (44_rotate.md R162). -/
theorem rotl64_rotl64_of_add_eq {s t : Nat} (h : s + t = 64) (hs : 0 < s) (ht : 0 < t) (x : Word) :
    rotl64 (rotl64 x s) t = x := by
  rw [rotl64_eq_rotateLeft x s hs (by omega), rotl64_eq_rotateLeft _ t ht (by omega)]
  apply BitVec.eq_of_getLsbD_eq
  intro i hi
  have hsmod : s % 64 = s := Nat.mod_eq_of_lt (by omega)
  have htmod : t % 64 = t := Nat.mod_eq_of_lt (by omega)
  simp only [BitVec.getLsbD_rotateLeft, hsmod, htmod]
  by_cases hit : i < t
  · have hsi : 64 - t + i - s = i := by omega
    simp [hit, hsi, show ¬ 64 - t + i < s by omega, show 64 - t + i < 64 by omega]
  · have hsi : 64 - s + (i - t) = i := by omega
    simp [hit, hsi, hi, show i - t < s by omega]

/-- The eight steps of 41_sipround.md R110 undone, the last one first (R116). -/
def sipUnround (S : SipState) : SipState :=
  -- steps 8 and 7
  let v2 := rotl64 S.v2 32
  let v1 := S.v1 ^^^ v2
  let v3 := S.v3 ^^^ S.v0
  -- steps 6 and 5
  let v1 := rotl64 v1 47
  let v3 := rotl64 v3 43
  let v2 := v2 - v1
  let v0 := S.v0 - v3
  -- steps 4 and 3
  let v0 := rotl64 v0 32
  let v1 := v1 ^^^ v0
  let v3 := v3 ^^^ v2
  -- steps 2 and 1
  let v1 := rotl64 v1 51
  let v3 := rotl64 v3 48
  ⟨v0 - v1, v1, v2 - v3, v3⟩

/-- Each undone step meets its own step and cancels: a difference with its sum, a rotation with the
opposite one, an XOR with itself. -/
theorem sipUnround_sipRound (S : SipState) : sipUnround (sipRound S) = S := by
  simp only [sipUnround, sipRound, Nat.reduceAdd, Nat.ofNat_pos, rotl64_rotl64_of_add_eq,
    xor_cancel_right, add_sub_cancel_right]

theorem sipRound_sipUnround (S : SipState) : sipRound (sipUnround S) = S := by
  simp only [sipRound, sipUnround, Nat.reduceAdd, Nat.ofNat_pos, rotl64_rotl64_of_add_eq,
    xor_cancel_right, sub_add_cancel]

/-- Settles O41: the inverse round undoes SipRound on both sides. -/
theorem sipRoundIsABijection : Obligations.SipRoundIsABijection :=
  Function.bijective_iff_has_inverse.2 ⟨sipUnround, sipUnround_sipRound, sipRound_sipUnround⟩

/-! ## Compress -/

theorem compress_compress (S : SipState) (a b : Nat) :
    compress (compress S a) b = compress S (a + b) := by
  induction b with
  | zero => rfl
  | succ b ih => exact congrArg sipRound ih

/-- Settles O42: the two equations are the recursion of `compress`, and the sum is by induction on the
second count. -/
theorem compressIteratesAndComposes : Obligations.CompressIteratesAndComposes :=
  ⟨fun _ => rfl, fun _ _ => rfl, compress_compress⟩

end Sys2Proof
end

section
/-! PROOFS. COMPRESS (41_sipround.md R114). -/

namespace Sys2Proof

open Sys2Proof.Machine Sys2Proof.Spec

/-- 30_encoding.md R68: a word with a command's OP is answered with IllegalCommand when RSV or an unused
field of its row is not 0. -/
theorem answeredIllegal_of_opField {cmd : CmdWord} {op : Opcode} (hop : opField cmd = op.code)
    (h : ¬ (rsvField cmd = 0 ∧ op.UnusedFieldsZero cmd)) (p : Payload) : AnsweredIllegal cmd p := by
  obtain ⟨-, answered, -⟩ := illegalEncodingsRaiseIllegalCommand
  exact answered cmd p ((illegalWord_iff_of_opField hop).2 h)

/-- 60_exceptions.md R202, step 6: a command that needs the whole state fails when VALID is not 1111. -/
theorem withWords_of_valid_ne {s : State} (h : s.valid ≠ 0b1111#4) (k : SipState → State) :
    withWords s k = errored .stateNotInitialized s := by
  rw [withWords_of_none ((State.words_eq_none_iff s).2 h), raise_eq_errored]

theorem exec_compress_of_words {s : State} {S : SipState} (h : s.words = some S) (n : Nat) :
    exec (.compress n) s = .next (complete none (s.loadWords (compress S n))) :=
  congrArg _ (withWords_of_some h _)

theorem exec_compress_of_valid_ne {s : State} (h : s.valid ≠ 0b1111#4) (n : Nat) :
    exec (.compress n) s = .next (errored .stateNotInitialized s) :=
  congrArg _ (withWords_of_valid_ne h _)

theorem decode_compress {cmd : CmdWord} (hop : opField cmd = 0x4) (hrsv : rsvField cmd = 0)
    (hplen : plenField cmd = 0) (htlen : tlenField cmd = 0) (p : Payload) :
    decode cmd p = .ok (.compress (cntField cmd)) :=
  (decode_eq_ok_iff _ _ _).2 ⟨hop, hrsv, if_pos ⟨hplen, htlen⟩⟩

/-- Settles O19: the four words are the state value the rounds are applied to; without one the command
fails its only check; and its row of R67 has PLEN and TLEN 0. -/
theorem compressAppliesTheRounds : Obligations.CompressAppliesTheRounds := by
  intro n p s
  refine ⟨fun v0 v1 v2 v3 T h0 h1 h2 h3 hT => ?_, fun hvalid => exec_compress_of_valid_ne hvalid n,
    fun cmd hop hrsv hplen htlen => decode_compress hop hrsv hplen htlen p, fun cmd hop h => ?_⟩
  · have hwords : s.words = some ⟨v0, v1, v2, v3⟩ :=
      (State.words_eq_some_iff s _).2 ⟨h0, h1, h2, h3⟩
    rw [exec_compress_of_words hwords, hT]
    rfl
  · refine answeredIllegal_of_opField (op := .compress) hop ?_ p
    rintro ⟨hrsv, hplen, htlen⟩
    simp [hrsv, hplen, htlen] at h

end Sys2Proof
end

section
/-! PROOFS. ABSORB and ABSORB_LAST (42_absorb.md R130 to R134). -/

namespace Sys2Proof

open Sys2Proof.Machine Sys2Proof.Spec

/-! ## ABSORB -/

theorem exec_absorb_of_words {s : State} {S : SipState} (h : s.words = some S) (c : Nat)
    (p : Payload) :
    exec (.absorb 8 c p) s = .next (complete none (s.loadWords (absorb S (lowWord p) c))) :=
  congrArg _ (withWords_of_some h _)

theorem exec_absorb_of_plen_ne {plen : Nat} (hlen : plen ≠ 8) (c : Nat) (p : Payload) (s : State) :
    exec (.absorb plen c p) s = .next (errored .invalidBlockLength s) := by
  rw [← raise_eq_errored]
  exact congrArg _ (if_neg hlen)

theorem exec_absorb_of_valid_ne {s : State} (h : s.valid ≠ 0b1111#4) (c : Nat) (p : Payload) :
    exec (.absorb 8 c p) s = .next (errored .stateNotInitialized s) :=
  congrArg _ (withWords_of_valid_ne h _)

theorem decode_absorb {cmd : CmdWord} (hop : opField cmd = 0x2) (hrsv : rsvField cmd = 0)
    (htlen : tlenField cmd = 0) (p : Payload) :
    decode cmd p = .ok (.absorb (plenField cmd) (cntField cmd) p) :=
  (decode_eq_ok_iff _ _ _).2 ⟨hop, hrsv, if_pos htlen⟩

/-- Settles O17: in a valid state the four words are the state value that R130's Absorb folds the block
into; the length and the state are the two checks, in that order; and the row of R67 has TLEN 0. -/
theorem absorbFoldsInOneBlock : Obligations.AbsorbFoldsInOneBlock := by
  intro c p s
  refine ⟨fun v0 v1 v2 v3 T h0 h1 h2 h3 hT => ?_, fun plen hlen => exec_absorb_of_plen_ne hlen c p s,
    fun hvalid => exec_absorb_of_valid_ne hvalid c p,
    fun cmd hop hrsv htlen => decode_absorb hop hrsv htlen p, fun cmd hop h => ?_⟩
  · have hwords : s.words = some ⟨v0, v1, v2, v3⟩ :=
      (State.words_eq_some_iff s _).2 ⟨h0, h1, h2, h3⟩
    rw [exec_absorb_of_words hwords, hT]
    rfl
  · refine answeredIllegal_of_opField (op := .absorb) hop ?_ p
    rintro ⟨hrsv, htlen⟩
    exact h.elim (· hrsv) (· htlen)

/-! ## ABSORB_LAST -/

theorem exec_absorbLast_of_words {plen : Nat} (hlen : plen ≤ 7) {s : State} {S : SipState}
    (h : s.words = some S) (c : Nat) (tlen : Byte) (p : Payload) :
    exec (.absorbLast plen c tlen p) s =
      .next (complete none (s.loadWords (absorb S (finalWord p plen tlen) c))) :=
  congrArg _ ((if_pos hlen).trans (withWords_of_some h _))

theorem exec_absorbLast_of_lt_plen {plen : Nat} (hlen : 7 < plen) (c : Nat) (tlen : Byte)
    (p : Payload) (s : State) :
    exec (.absorbLast plen c tlen p) s = .next (errored .invalidRemainderLength s) := by
  rw [← raise_eq_errored]
  exact congrArg _ (if_neg (Nat.not_le.2 hlen))

theorem exec_absorbLast_of_valid_ne {plen : Nat} (hlen : plen ≤ 7) {s : State}
    (h : s.valid ≠ 0b1111#4) (c : Nat) (tlen : Byte) (p : Payload) :
    exec (.absorbLast plen c tlen p) s = .next (errored .stateNotInitialized s) :=
  congrArg _ ((if_pos hlen).trans (withWords_of_valid_ne h _))

theorem decode_absorbLast {cmd : CmdWord} (hop : opField cmd = 0x3) (hrsv : rsvField cmd = 0)
    (p : Payload) :
    decode cmd p = .ok (.absorbLast (plenField cmd) (cntField cmd) (tlenField cmd) p) :=
  (decode_eq_ok_iff _ _ _).2 ⟨hop, hrsv, rfl⟩

/-- Settles O18: the block written out byte by byte is the model's final block, absorbed as ABSORB
absorbs its own; the length and the state are the two checks; and the row of R67 leaves only RSV to be
0. -/
theorem absorbLastFoldsInThePaddedBlock : Obligations.AbsorbLastFoldsInThePaddedBlock := by
  intro c tlen p s
  refine ⟨fun plen v0 v1 v2 v3 m T hlen h0 h1 h2 h3 hm hT => ?_,
    fun plen hlen => exec_absorbLast_of_lt_plen hlen c tlen p s,
    fun plen hlen hvalid => exec_absorbLast_of_valid_ne hlen hvalid c tlen p,
    fun cmd hop hrsv => decode_absorbLast hop hrsv p, fun cmd hop hrsv => ?_⟩
  · have hwords : s.words = some ⟨v0, v1, v2, v3⟩ :=
      (State.words_eq_some_iff s _).2 ⟨h0, h1, h2, h3⟩
    have hblock : finalWord p plen tlen = m := hm.symm
    rw [exec_absorbLast_of_words hlen hwords, hblock, hT]
    rfl
  · exact answeredIllegal_of_opField (op := .absorbLast) hop (fun h => hrsv h.1) p

end Sys2Proof
end

section
/-! PROOFS. The final block as a word, bit by bit (42_absorb.md R133). -/

namespace Sys2Proof

open Sys2Proof.Machine

/-- Bit k of the little-endian decode is a bit of byte k / 8 (20_memory.md R42). -/
theorem getLsbD_le64 (b : Vector Byte 8) {k : Nat} (hk : k < 64) :
    (le64 b).getLsbD k = b[k / 8].getLsbD (k % 8) := by
  rw [← extractLsb'_le64 b ⟨k / 8, by omega⟩, BitVec.getLsbD_extractLsb', Nat.div_add_mod]
  simp [Nat.mod_lt]

theorem getElem_finalBlock_of_lt (p : Payload) (plen : Nat) (tlen : Byte) (i : Fin 7) :
    (finalBlock p plen tlen)[i.val] = remainderByte p plen i := by
  fin_cases i <;> rfl

/-- 42_absorb.md R133: of the seven low bytes, the bits below 8·PLEN are the payload's and the others
are 0. -/
theorem getLsbD_finalWord_of_lt (p : Payload) (plen : Nat) (tlen : Byte) {k : Nat} (hk : k < 56) :
    (finalWord p plen tlen).getLsbD k = (decide (k < 8 * plen) && (lowWord p).getLsbD k) := by
  have hbyte := getElem_finalBlock_of_lt p plen tlen ⟨k / 8, by omega⟩
  have hpayload := getElem_payloadLow p ⟨k / 8, by omega⟩
  have hinside : k / 8 < plen ↔ k < 8 * plen := by omega
  rw [finalWord, lowWord, getLsbD_le64 _ (by omega), getLsbD_le64 _ (by omega), hbyte, hpayload,
    remainderByte]
  by_cases h : k < 8 * plen <;> simp [hinside, h]

/-- 42_absorb.md R133: the length byte is bits [63:56]. -/
theorem extractLsb'_finalWord (p : Payload) (plen : Nat) (tlen : Byte) :
    (finalWord p plen tlen).extractLsb' 56 8 = tlen :=
  extractLsb'_le64 (finalBlock p plen tlen) 7

theorem getLsbD_finalWord_of_le (p : Payload) (plen : Nat) (tlen : Byte) {k : Nat} (h : 56 ≤ k)
    (hk : k < 64) : (finalWord p plen tlen).getLsbD k = tlen.getLsbD (k - 56) := by
  conv_rhs => rw [← extractLsb'_finalWord p plen tlen, BitVec.getLsbD_extractLsb']
  simp [show k - 56 < 8 by omega, Nat.add_sub_cancel' h]

/-- The word of R133's equation: the shift leaves bits 55 to 0 free, and the mask leaves bits from
8·PLEN on, where TLEN stands, free. -/
theorem finalWord_eq_or (p : Payload) {plen : Nat} (hlen : plen ≤ 7) (tlen : Byte) :
    finalWord p plen tlen =
      (tlen.zeroExtend 64 <<< 56) ||| (lowWord p &&& BitVec.ofNat 64 (2 ^ (8 * plen) - 1)) := by
  apply BitVec.eq_of_getLsbD_eq
  intro k hk
  simp only [BitVec.getLsbD_or, BitVec.getLsbD_and, BitVec.getLsbD_shiftLeft, BitVec.getLsbD_setWidth,
    BitVec.getLsbD_ofNat, Nat.testBit_two_pow_sub_one]
  by_cases h : k < 56
  · rw [getLsbD_finalWord_of_lt p plen tlen h]
    simp [h, hk, Bool.and_comm]
  · rw [getLsbD_finalWord_of_le p plen tlen (by omega) hk]
    simp [h, hk, show ¬ k < 8 * plen by omega, show k - 56 < 64 by omega]

/-- Settles O39: the equation, and each range of bits by where it lies in the block. -/
theorem finalBlockAsAWord : Obligations.FinalBlockAsAWord := by
  intro p plen tlen hlen
  refine ⟨finalWord_eq_or p hlen tlen, extractLsb'_finalWord p plen tlen, fun k hlow hk => ?_,
    fun k hk => ?_⟩
  · simp [getLsbD_finalWord_of_lt p plen tlen hk, Nat.not_lt.2 hlow]
  · rw [getLsbD_finalWord_of_lt p plen tlen (by omega), lowWord]
    simp [hk]

end Sys2Proof
end

section
/-! PROOFS. The host protocol of 42_absorb.md R136: every command succeeds, so between two of them the
core differs from the state it began in only by the words, ERR, RESULT, the response and the inputs
still to come. -/

namespace Sys2Proof

open Sys2Proof.Machine

/-! ## Runs of issued instructions -/

theorem run_succ_of_step {s t : State} (h : step s = .next t) (k : Nat) :
    Host.Core.run core (k + 1) s = Host.Core.run core k t := by
  simp only [Host.Core.run, core, h]

/-- The host issues the words of an instruction, before the inputs `rest`. -/
abbrev issued (i : Instr) (rest : List HostInput) : List HostInput :=
  .command (encode i).1 (encode i).2 :: rest

/-- The host issues the ABSORBs of a list of blocks (42_absorb.md R136). -/
def issueBlocks (c : Nat) (blocks : List (List Byte)) : List HostInput :=
  issue (blocks.map fun block => encode (.absorb 8 c (padPayload block)))

theorem cntFits_of_le {cnt : Nat} (h : cnt ≤ 255) : cntFits cnt = true :=
  decide_eq_true (Nat.lt_succ_of_le h)

/-- The words the host issues for a well-formed instruction run that instruction. -/
theorem step_of_issued {s : State} {i : Instr} {rest : List HostInput}
    (hpending : s.pending = issued i rest) (hwf : i.wellFormed = true) :
    step s = exec i { s with pending := rest } :=
  stepRunsDecodedInstruction s _ _ rest i hpending (decodeInvertsEncode i hwf)

/-! ## The states of the protocol -/

/-- The core, begun in `s`, after a command that succeeded without a result and left the words `S`, with
the host's `inputs` to come. -/
def midHash (s : State) (S : SipState) (inputs : List HostInput) : State :=
  complete none (({ s with pending := inputs } : State).loadWords S)

@[simp] theorem words_midHash (s : State) (S : SipState) (inputs : List HostInput) :
    (midHash s S inputs).words = some S := rfl

@[simp] theorem pending_midHash (s : State) (S : SipState) (inputs : List HostInput) :
    (midHash s S inputs).pending = inputs := rfl

theorem exec_finalize_of_words {s : State} {S : SipState} (h : s.words = some S) (d : Nat) :
    exec (.finalize d) s = .next (complete (some (finalize S d)) s) :=
  congrArg _ (withWords_of_some h _)

section Protocol

variable (s : State) (S : SipState) (p : Payload) (rest : List HostInput)

/-- INIT begins the protocol, from every state (40_init.md R101). -/
theorem step_issued_init {s : State} (hpending : s.pending = issued (.init 16 p) rest) :
    step s = .next (midHash s (initWords (lowWord p) (highWord p)) rest) :=
  step_of_issued hpending rfl

theorem step_midHash_absorb {c : Nat} (hc : c ≤ 255) :
    step (midHash s S (issued (.absorb 8 c p) rest)) =
      .next (midHash s (absorb S (lowWord p) c) rest) :=
  (step_of_issued (i := .absorb 8 c p) (pending_midHash ..) (cntFits_of_le hc)).trans
    (exec_absorb_of_words (words_midHash s S rest) c p)

theorem step_midHash_absorbLast {plen c : Nat} (hlen : plen ≤ 7) (hc : c ≤ 255) (tlen : Byte) :
    step (midHash s S (issued (.absorbLast plen c tlen p) rest)) =
      .next (midHash s (absorb S (finalWord p plen tlen) c) rest) := by
  have hwf : (Instr.absorbLast plen c tlen p).wellFormed = true :=
    Bool.and_eq_true_iff.2 ⟨decide_eq_true (by omega), cntFits_of_le hc⟩
  exact (step_of_issued (pending_midHash ..) hwf).trans
    (exec_absorbLast_of_words hlen (words_midHash s S rest) c tlen p)

/-- FINALIZE answers the digest and leaves the words (43_finalize.md R151). -/
theorem step_midHash_finalize {d : Nat} (hd : d ≤ 255) :
    step (midHash s S (issued (.finalize d) rest)) =
      .next (complete (some (finalize S d)) (midHash s S rest)) :=
  (step_of_issued (i := .finalize d) (pending_midHash ..) (cntFits_of_le hd)).trans
    (exec_finalize_of_words (words_midHash s S rest) d)

/-- The ABSORBs of a list of blocks fold them into the words one after another. -/
theorem run_midHash_absorbBlocks {c : Nat} (hc : c ≤ 255) (blocks : List (List Byte)) (k : Nat) :
    Host.Core.run core (blocks.length + k) (midHash s S (issueBlocks c blocks ++ rest)) =
      Host.Core.run core k (midHash s (absorbBlocks S c blocks) rest) := by
  induction blocks generalizing S with
  | nil => rw [List.length_nil, Nat.zero_add]; rfl
  | cons block blocks ih =>
    rw [List.length_cons, Nat.add_right_comm]
    exact (run_succ_of_step (step_midHash_absorb s S (padPayload block) _ hc) _).trans (ih _)

end Protocol

/-! ## The whole protocol -/

theorem length_fullBlocks (msg : List Byte) : (fullBlocks msg).length = msg.length / 8 := by
  simp [fullBlocks]

/-- The commands of R136 are the encodings of INIT, the ABSORBs, ABSORB_LAST and FINALIZE. -/
theorem issue_hashCommands (c d : Nat) (key : Payload) (msg : List Byte) (rest : List HostInput) :
    issue (hashCommands c d key msg) ++ rest =
      issued (.init 16 key) (issueBlocks c (fullBlocks msg) ++
        issued (.absorbLast (msg.length % 8) c (BitVec.ofNat 8 msg.length)
            (padPayload (messageRemainder msg))) (issued (.finalize d) rest)) := by
  have htlen : BitVec.ofNat 8 (msg.length % 256) = BitVec.ofNat 8 msg.length :=
    BitVec.eq_of_toNat_eq (by simp)
  simp [hashCommands, issue, issueBlocks, encode, htlen]

/-- The words that FINALIZE finds: the key's, with every block of the message folded in. -/
def messageWords (c : Nat) (key : Payload) (msg : List Byte) : SipState :=
  absorb (absorbBlocks (initWords (lowWord key) (highWord key)) c (fullBlocks msg))
    (finalWord (padPayload (messageRemainder msg)) (msg.length % 8) (BitVec.ofNat 8 msg.length)) c

theorem finalize_messageWords (c d : Nat) (key : Payload) (msg : List Byte) :
    finalize (messageWords c key msg) d = sipHash c d key msg := rfl

/-- The commands of R136 run to the state in which FINALIZE has answered the digest. -/
theorem run_hashCommands {c d : Nat} (hc : c ≤ 255) (hd : d ≤ 255) (key : Payload)
    (msg : List Byte) {s : State} {rest : List HostInput}
    (hpending : s.pending = issue (hashCommands c d key msg) ++ rest) :
    Host.Core.run core (msg.length / 8 + 3) s =
      .next (complete (some (sipHash c d key msg)) (midHash s (messageWords c key msg) rest)) := by
  rw [issue_hashCommands] at hpending
  rw [run_succ_of_step (step_issued_init key _ hpending), ← length_fullBlocks,
    run_midHash_absorbBlocks s _ _ hc,
    run_succ_of_step (step_midHash_absorbLast s _ _ _ (by omega) hc _),
    run_succ_of_step (step_midHash_finalize s _ rest hd), ← finalize_messageWords]
  rfl

/-- Settles O45: INIT, each full block, the last block and FINALIZE take one step each, every one
succeeds, and none touches STICKY or the later inputs. -/
theorem hostProtocolComputesTheDigest : Obligations.HostProtocolComputesTheDigest := by
  intro c d key msg s rest hc hd hpending
  exact ⟨_, run_hashCommands hc hd key msg hpending, rfl, rfl, rfl, rfl⟩

end Sys2Proof
end

section
/-! PROOFS. FINALIZE (43_finalize.md R150, R151). -/

namespace Sys2Proof

open Sys2Proof.Machine Sys2Proof.Spec

theorem exec_finalize_of_valid_ne {s : State} (h : s.valid ≠ 0b1111#4) (d : Nat) :
    exec (.finalize d) s = .next (errored .stateNotInitialized s) :=
  congrArg _ (withWords_of_valid_ne h _)

theorem decode_finalize {cmd : CmdWord} (hop : opField cmd = 0x5) (hrsv : rsvField cmd = 0)
    (hplen : plenField cmd = 0) (htlen : tlenField cmd = 0) (p : Payload) :
    decode cmd p = .ok (.finalize (cntField cmd)) :=
  (decode_eq_ok_iff _ _ _).2 ⟨hop, hrsv, if_pos ⟨hplen, htlen⟩⟩

/-- Settles O20: the digest of R150 is taken of the four words, which are left as they are; without one
of them the command fails its only check; and its row of R67 has PLEN and TLEN 0. -/
theorem finalizeReturnsTheDigest : Obligations.FinalizeReturnsTheDigest := by
  intro d p s
  refine ⟨fun v0 v1 v2 v3 W h0 h1 h2 h3 hW => ?_, fun hvalid => exec_finalize_of_valid_ne hvalid d,
    fun cmd hop hrsv hplen htlen => decode_finalize hop hrsv hplen htlen p, fun cmd hop h => ?_⟩
  · have hwords : s.words = some ⟨v0, v1, v2, v3⟩ :=
      (State.words_eq_some_iff s _).2 ⟨h0, h1, h2, h3⟩
    rw [exec_finalize_of_words hwords, hW]
    rfl
  · refine answeredIllegal_of_opField (op := .finalize) hop ?_ p
    rintro ⟨hrsv, hplen, htlen⟩
    simp [hrsv, hplen, htlen] at h

end Sys2Proof
end

section
/-! PROOFS. The rotation and ROTL (44_rotate.md R160 to R162). -/

namespace Sys2Proof

open Sys2Proof.Machine Sys2Proof.Spec

/-! ## The rotation -/

/-- Both operands of R160's OR are below 2^64, so taking them as a word loses no bit. -/
theorem toNat_rotl64 (x : Word) (s : Nat) :
    (rotl64 x s).toNat = ((x.toNat <<< s) &&& 0xffffffffffffffff) ||| (x.toNat >>> (64 - s)) := by
  have hleft : (x.toNat <<< s) &&& 0xffffffffffffffff < 2 ^ 64 := Nat.and_lt_two_pow _ (by decide)
  have hright : x.toNat >>> (64 - s) < 2 ^ 64 := (Nat.shiftRight_le _ _).trans_lt x.isLt
  rw [rotl64, BitVec.toNat_ofNat, Nat.mod_eq_of_lt (Nat.or_lt_two_pow hleft hright)]

/-- A bit below s wraps around from the top of the word, any other one moves up by s. -/
theorem getLsbD_rotl64 (x : Word) {s i : Nat} (hs : 0 < s) (hs' : s < 64) (hi : i < 64) :
    (rotl64 x s).getLsbD i = x.getLsbD ((i + 64 - s) % 64) := by
  rw [rotl64_eq_rotateLeft x s hs hs', BitVec.getLsbD_rotateLeft, Nat.mod_eq_of_lt hs']
  by_cases his : i < s
  · have hwrap : (i + 64 - s) % 64 = 64 - s + i := by omega
    simp [his, hwrap]
  · have hmove : (i + 64 - s) % 64 = i - s := by omega
    simp [his, hi, hmove]

/-- Settles O44: s and 64 - s add up to the 64 positions. -/
theorem rotationInverse : Obligations.RotationInverse := fun x _ hlow hhigh =>
  rotl64_rotl64_of_add_eq (by omega) (by omega) (by omega) x

/-! ## ROTL -/

theorem exec_rotl_of_plen_ne {plen : Nat} (hlen : plen ≠ 8) (amount : Nat) (p : Payload) (s : State) :
    exec (.rotl plen amount p) s = .next (errored .illegalCommand s) := by
  rw [← raise_eq_errored]
  exact congrArg _ (if_pos hlen)

theorem exec_rotl_of_amount_illegal {amount : Nat} (h : amount = 0 ∨ 64 ≤ amount) (p : Payload)
    (s : State) : exec (.rotl 8 amount p) s = .next (errored .invalidShift s) := by
  rw [← raise_eq_errored]
  exact congrArg _ (if_pos h)

theorem exec_rotl_of_amount_legal {amount : Nat} (hlow : 1 ≤ amount) (hhigh : amount ≤ 63)
    (p : Payload) (s : State) :
    exec (.rotl 8 amount p) s = .next (complete (some ((lowWord p).rotateLeft amount)) s) := by
  have hlegal : ¬ (amount = 0 ∨ 64 ≤ amount) := by omega
  rw [← rotl64_eq_rotateLeft _ _ (by omega) (by omega)]
  exact congrArg _ (if_neg hlegal)

theorem decode_rotl {cmd : CmdWord} (hop : opField cmd = 0x6) (hrsv : rsvField cmd = 0)
    (htlen : tlenField cmd = 0) (p : Payload) :
    decode cmd p = .ok (.rotl (plenField cmd) (cntField cmd) p) :=
  (decode_eq_ok_iff _ _ _).2 ⟨hop, hrsv, if_pos htlen⟩

/-- Settles O21: for a legal amount the result is the rotation of R160; the length and the amount are
the two checks, in that order; and the row of R67 has TLEN 0. -/
theorem rotlReturnsTheRotation : Obligations.RotlReturnsTheRotation := by
  intro p s
  refine ⟨fun amount hlow hhigh => exec_rotl_of_amount_legal hlow hhigh p s,
    fun plen amount hlen => exec_rotl_of_plen_ne hlen amount p s,
    fun amount h => exec_rotl_of_amount_illegal h p s,
    fun cmd hop hrsv htlen => decode_rotl hop hrsv htlen p, fun cmd hop h => ?_⟩
  refine answeredIllegal_of_opField (op := .rotl) hop ?_ p
  rintro ⟨hrsv, htlen⟩
  exact h.elim (· hrsv) (· htlen)

/-- Settles O43: the masked shifts are the word's value, each bit is at its place in the rotation, and
R160's other amounts fail ROTL's check. -/
theorem rotationMovesEachBit : Obligations.RotationMovesEachBit :=
  ⟨fun x k _ _ => toNat_rotl64 x k, fun x _ _ hs hs' hi => getLsbD_rotl64 x hs hs' hi,
    fun p s _ h => exec_rotl_of_amount_illegal h p s⟩

end Sys2Proof
end

section
/-! PROOFS. ACCEL_QUERY, STATE_READ and STATE_WRITE (45_host.md R170 to R172). -/

namespace Sys2Proof

open Sys2Proof.Machine Sys2Proof.Spec

/-! ## ACCEL_QUERY -/

theorem exec_accelQuery (s : State) :
    exec .accelQuery s = .next (complete (some (if s.accelActive then 1#64 else 0#64)) s) := rfl

/-- The row of R67 for ACCEL_QUERY leaves no field free, so it has one word. -/
theorem eq_accelQuery_word {cmd : CmdWord} (hop : opField cmd = 0x7) (hrsv : rsvField cmd = 0)
    (hunused : Opcode.accelQuery.UnusedFieldsZero cmd) : cmd = 0x00000007#32 := by
  obtain ⟨hplen, hcnt, htlen⟩ := hunused
  exact (cmdWord_eq_iff_fields _ _).2 ⟨hop, hplen, hrsv, hcnt, congrArg BitVec.toNat htlen⟩

/-- Settles O22: the result is the flag as a word, and the legal words with OP 7 are the one of
R170. -/
theorem accelQueryReturnsTheFlag : Obligations.AccelQueryReturnsTheFlag := by
  intro p s
  refine ⟨fun hactive => ?_, fun hidle => ?_, rfl, fun cmd hop hother => ?_⟩
  · rw [exec_accelQuery, hactive]
    rfl
  · rw [exec_accelQuery, hidle]
    rfl
  · refine answeredIllegal_of_opField (op := .accelQuery) hop ?_ p
    rintro ⟨hrsv, hunused⟩
    exact hother (eq_accelQuery_word hop hrsv hunused)

/-! ## The selector -/

theorem selNumber_eq_index (sel : VReg) : selNumber sel = sel.index := by
  cases sel <;> rfl

/-- A VALID bit 0 says that its word holds no value (10_state.md R25). -/
theorem readV_eq_none_of_valid {s : State} {sel : VReg}
    (h : s.valid.getLsbD (selNumber sel) = false) : s.readV sel = none := by
  rwa [selNumber_eq_index, State.getLsbD_valid, Option.isSome_eq_false_iff,
    Option.isNone_iff_eq_none] at h

/-- 30_encoding.md R63: CNT selects the word whose number it is. -/
theorem ofCnt_cntField {cmd : CmdWord} {sel : VReg} (hcnt : cntField cmd = selNumber sel) :
    VReg.ofCnt (cntField cmd) = some sel :=
  (VReg.ofCnt_eq_some_iff _ _).2 (hcnt.trans (selNumber_eq_index sel))

/-! ## STATE_READ -/

theorem exec_stateRead_of_some {s : State} {sel : VReg} {x : Word} (h : s.readV sel = some x) :
    exec (.stateRead sel) s = .next (complete (some x) s) := by
  simp only [exec, execStateRead, h]

theorem exec_stateRead_of_none {s : State} {sel : VReg} (h : s.readV sel = none) :
    exec (.stateRead sel) s = .next (errored .stateNotInitialized s) := by
  simp only [exec, execStateRead, h, raise_eq_errored]

theorem decode_stateRead {cmd : CmdWord} {sel : VReg} (hop : opField cmd = 0x8)
    (hrsv : rsvField cmd = 0) (hplen : plenField cmd = 0) (htlen : tlenField cmd = 0)
    (hcnt : cntField cmd = selNumber sel) (p : Payload) : decode cmd p = .ok (.stateRead sel) := by
  refine (decode_eq_ok_iff _ _ _).2 ⟨hop, hrsv, ?_⟩
  simp only [Instr.opcode, decodeOperands, ofCnt_cntField hcnt, hplen, htlen, and_self, if_true]

/-- Settles O23: the selected word is the result; without a value in it the command fails its only
check, which reads no other VALID bit; and its row of R67 has PLEN, TLEN and the high bits of CNT 0. -/
theorem stateReadReturnsTheWord : Obligations.StateReadReturnsTheWord := by
  intro sel p s
  refine ⟨fun x hword => ?_, fun hbit => exec_stateRead_of_none (readV_eq_none_of_valid hbit),
    fun cmd hop hrsv hplen htlen hcnt => decode_stateRead hop hrsv hplen htlen hcnt p,
    fun cmd hop h => ?_⟩
  · have hread : s.readV sel = some x := by cases sel <;> exact hword
    exact exec_stateRead_of_some hread
  · refine answeredIllegal_of_opField (op := .stateRead) hop ?_ p
    rintro ⟨hrsv, hplen, hcnt, htlen⟩
    simp [hrsv, hplen, Nat.not_le.2 hcnt, htlen] at h

/-! ## STATE_WRITE -/

theorem exec_stateWrite_of_plen (sel : VReg) (p : Payload) (s : State) :
    exec (.stateWrite 8 sel p) s = .next (complete none (s.writeV sel (lowWord p))) := rfl

theorem exec_stateWrite_of_plen_ne {plen : Nat} (hlen : plen ≠ 8) (sel : VReg) (p : Payload)
    (s : State) : exec (.stateWrite plen sel p) s = .next (errored .illegalCommand s) := by
  rw [← raise_eq_errored]
  exact congrArg _ (if_neg hlen)

theorem decode_stateWrite {cmd : CmdWord} {sel : VReg} (hop : opField cmd = 0x9)
    (hrsv : rsvField cmd = 0) (htlen : tlenField cmd = 0) (hcnt : cntField cmd = selNumber sel)
    (p : Payload) : decode cmd p = .ok (.stateWrite (plenField cmd) sel p) := by
  refine (decode_eq_ok_iff _ _ _).2 ⟨hop, hrsv, ?_⟩
  simp only [Instr.opcode, decodeOperands, ofCnt_cntField hcnt, htlen, if_true]

/-- Settles O24: the write changes the selected word's field and no other; the length is the only
check; and the row of R67 has TLEN and the high bits of CNT 0. -/
theorem stateWriteLoadsTheWord : Obligations.StateWriteLoadsTheWord := by
  intro sel p s
  refine ⟨?_, fun plen hlen => exec_stateWrite_of_plen_ne hlen sel p s,
    fun cmd hop hrsv htlen hcnt => decode_stateWrite hop hrsv htlen hcnt p, fun cmd hop h => ?_⟩
  · rw [exec_stateWrite_of_plen]
    cases sel <;> rfl
  · refine answeredIllegal_of_opField (op := .stateWrite) hop ?_ p
    rintro ⟨hrsv, hcnt, htlen⟩
    simp [hrsv, Nat.not_le.2 hcnt, htlen] at h

end Sys2Proof
end

section
/-! PROOFS. The check of a command and the errors it raises (60_exceptions.md R202 to R206), and the
step without an input (R215). -/

namespace Sys2Proof

open Sys2Proof.Machine Sys2Proof.Spec

/-! ## The first check a command fails -/

/-- Every command completes: no error stops the core (60_exceptions.md R204). -/
theorem exists_step_of_next {s : State} {cmd : CmdWord} {p : Payload} {rest : List HostInput}
    (hnext : Next s cmd p rest) : ∃ t, step s = .next t := by
  rw [step_of_command hnext]
  obtain ⟨i, -, hrun⟩ | ⟨d, -, hrun⟩ := runCommand_cases cmd p { s with pending := rest }
  · rw [hrun]
    cases exec_effect i { s with pending := rest } with
    | raises hfail hexec => exact ⟨_, hexec⟩
    | completes r u hpass hexec hresult hvalid => exact ⟨_, hexec⟩
  · exact ⟨_, hrun⟩

/-- Settles O11: the step raises the error of the check, or passes the check and completes the
instruction of the word, which is what `exec` answers. -/
theorem stepReportsFirstFailingCheck : Obligations.StepReportsFirstFailingCheck := by
  intro s cmd p rest hnext
  obtain ⟨t, hstep⟩ := exists_step_of_next hnext
  obtain ⟨hfail, rfl⟩ | ⟨hpass, i, r, u, hdec, rfl, -, -⟩ := step_by_check hnext hstep
  · exact ⟨fun _ => by rw [hstep, raise_eq_errored], fun h => absurd h hfail⟩
  · have hexec : exec i { s with pending := rest } = .next (complete r u) := by
      rw [← stepRunsDecodedInstruction s cmd p rest i hnext hdec, hstep]
    exact ⟨fun h => absurd hpass h, fun _ => ⟨i, complete r u, hdec, hexec, hstep, rfl⟩⟩

/-- Settles O25: a command that completes leaves ERR 0, so one that leaves an error raised it. -/
theorem errorsChangeOnlyWhatRaiseWrites : Obligations.ErrorsChangeOnlyWhatRaiseWrites := by
  intro s t cmd p rest hnext hstep herr
  obtain ⟨-, rfl⟩ | ⟨-, i, r, u, -, rfl, -, -⟩ := step_by_check hnext hstep
  · exact raise_eq_errored _ _
  · exact absurd rfl herr

/-! ## Which errors a command can raise (60_exceptions.md R206) -/

theorem needsAllWords_eq_ok_or_canRaise (valid : BitVec 4) {op : Nat}
    (hop : canRaise op .stateNotInitialized = true) :
    needsAllWords valid = .ok ∨ canRaise op (needsAllWords valid) = true := by
  unfold needsAllWords
  split
  · exact .inl rfl
  · exact .inr hop

/-- An instruction fails only the checks of its row of R206's table. -/
theorem error_eq_ok_or_canRaise (i : Instr) (valid : BitVec 4) :
    i.error valid = .ok ∨ canRaise i.opcode.code (i.error valid) = true := by
  cases i with
  | init | stateRead | stateWrite =>
    simp only [Instr.error]
    split
    · exact .inl rfl
    · exact .inr rfl
  | absorb | absorbLast =>
    simp only [Instr.error]
    split
    · exact needsAllWords_eq_ok_or_canRaise valid rfl
    · exact .inr rfl
  | compress | finalize => exact needsAllWords_eq_ok_or_canRaise valid rfl
  | rotl =>
    simp only [Instr.error]
    split
    · exact .inr rfl
    · split
      · exact .inr rfl
      · exact .inl rfl
  | accelQuery => exact .inl rfl

/-- The check of a word reports no error outside the row of its OP. -/
theorem canRaise_check {valid : BitVec 4} {cmd : CmdWord} (h : check valid cmd ≠ .ok) :
    canRaise (opField cmd) (check valid cmd) = true := by
  rw [check_eq_errorOfDecoded cmd zeroPayload] at h ⊢
  cases hdec : decode cmd zeroPayload with
  | ok i =>
    rw [hdec, errorOfDecoded_ok] at h
    rw [opField_of_decode hdec, errorOfDecoded_ok]
    exact (error_eq_ok_or_canRaise i valid).resolve_left h
  | error d => rfl

/-- A word with this OP that raises `e` in a state without words, where R206's table has it: RSV 1
for IllegalCommand, and otherwise a PLEN, with CNT 0, that fails the check of `e` and none before
it. -/
def raisingWord (op : Nat) (e : ErrCode) : CmdWord :=
  match e with
  | .illegalCommand => 0x00000200#32 ||| packCmd 0 0 0 op
  | .invalidRemainderLength | .invalidShift => packCmd 0 0 8 op
  | .stateNotInitialized => packCmd 0 0 (if op = 0x2 then 8 else 0) op
  | .ok | .invalidKeyLength | .invalidBlockLength => packCmd 0 0 0 op

theorem raisingWord_raises {op : Nat} {e : ErrCode} (hop : op < 16) (hcan : canRaise op e = true) :
    opField (raisingWord op e) = op ∧ check 0b0000#4 (raisingWord op e) = e := by
  revert op
  cases e <;> decide

/-- A command given right after reset answers the error of its check in a state without words. -/
theorem exists_step_after_reset (cmd : CmdWord) (p : Payload) :
    ∃ s t, Next s cmd p [] ∧ step s = .next t ∧ t.err = check 0b0000#4 cmd := by
  have hnext : Next { State.reset with pending := [.command cmd p] } cmd p [] := rfl
  have hvalid : ({ State.reset with pending := [.command cmd p] } : State).valid = 0b0000#4 := by
    simp [State.valid, State.reset]
  obtain ⟨t, hstep⟩ := exists_step_of_next hnext
  exact ⟨_, t, hnext, hstep, by rw [err_of_step hnext hstep, hvalid]⟩

/-- Settles O26: a step writes the error of the check, which is in the row of OP; and each error of
the row is raised after reset by a word of its own. -/
theorem commandsRaiseExactlyTheirErrors : Obligations.CommandsRaiseExactlyTheirErrors := by
  intro op e hop hne
  constructor
  · rintro ⟨s, t, cmd, p, rest, hnext, rfl, hstep, rfl⟩
    rw [err_of_step hnext hstep] at hne ⊢
    exact canRaise_check hne
  · intro hcan
    obtain ⟨hfield, hcheck⟩ := raisingWord_raises hop hcan
    obtain ⟨s, t, hnext, hstep, herr⟩ := exists_step_after_reset (raisingWord op e) zeroPayload
    exact ⟨s, t, _, _, _, hnext, hfield, hstep, herr.trans hcheck⟩

/-! ## No input -/

/-- Settles O12: of the two cases of a step, the one with an input needs a pending one. -/
theorem stepWithoutInputHoldsState : Obligations.StepWithoutInputHoldsState := by
  intro s hnone
  obtain ⟨-, h⟩ | ⟨input, rest, hpending, -⟩ := step_cases s
  · exact h
  · simp [hnone] at hpending

end Sys2Proof
end

section
/-! PROOFS. Reset and the progress of the core (70_reset_and_hazards.md). -/

namespace Sys2Proof

open Sys2Proof.Machine

/-! ## The reset state -/

/-- STATUS of a core that was reset: every field 0 but ACCEL_ACTIVE (70_reset_and_hazards.md R240,
R241). -/
theorem status_resetCore (s : State) :
    s.resetCore.status = statusWord 0#4 false 0b0000#4 false s.accelActive :=
  congrArg (statusWord 0#4 false · false s.accelActive) s.valid_resetCore

/-- Settles O32: the reset state is the one a reset leaves of it, so the rule for STATUS after a
reset gives both words. -/
theorem resetLeavesItsState : Obligations.ResetLeavesItsState := by
  have hstatus : State.reset.status = statusWord 0#4 false 0b0000#4 false State.reset.accelActive :=
    status_resetCore .reset
  refine ⟨⟨rfl, rfl, rfl, rfl, State.valid_resetCore .reset, rfl, rfl, rfl, rfl⟩,
    fun haccel => ?_, fun haccel => ?_⟩
  · rw [hstatus, haccel]
    rfl
  · rw [hstatus, haccel]
    rfl

/-- Settles O47: the reset state is the one a reset leaves of it. -/
theorem resetIsConsistent : Obligations.ResetIsConsistent := consistent_resetCore .reset

/-! ## A step that is given an input -/

/-- A step whose next input is a reset of one of the two kinds resets the core. -/
theorem step_of_reset {s : State} {input : HostInput} {rest : List HostInput}
    (hpending : s.pending = input :: rest) (hreset : ∀ cmd p, input ≠ .command cmd p) :
    step s = .next { s with pending := rest }.resetCore := by
  cases input with
  | command cmd p => exact absurd rfl (hreset cmd p)
  | reset => simp [step, hpending, runInput]
  | resetDuring cmd p => simp [step, hpending, runInput]

/-- Settles O33: neither kind of reset is a command, and the core it leaves is the record of R240. -/
theorem resetReplacesEveryState : Obligations.ResetReplacesEveryState := by
  intro s input rest hpending hkind
  refine step_of_reset hpending ?_
  obtain rfl | ⟨cmd, p, rfl⟩ := hkind
  · simp
  · simp

/-- Settles O14: with no input the step holds the state, a command always completes, and a reset
leaves the reset state. -/
theorem everyStepCompletes : Obligations.EveryStepCompletes := by
  intro s
  cases hpending : s.pending with
  | nil => exact ⟨s, stepWithoutInputHoldsState s hpending⟩
  | cons input rest =>
    cases input with
    | command cmd p => exact exists_step_of_next hpending
    | reset => exact ⟨_, step_of_reset hpending (by simp)⟩
    | resetDuring cmd p => exact ⟨_, step_of_reset hpending (by simp)⟩

end Sys2Proof
end

section
/-! PROOFS. The order of issue (10_state.md section 3, 20_memory.md section 4): what a step takes from
the host's inputs. -/

namespace Sys2Proof

open Sys2Proof.Machine

/-! ## A command leaves the inputs alone -/

/-- No instruction changes a later input, whether it raises an error or completes. -/
theorem pending_of_exec {i : Instr} {s t : State} (hexec : exec i s = .next t) :
    t.pending = s.pending := by
  obtain ⟨e, -, h⟩ | ⟨r, S, h⟩ | ⟨r, x, h⟩ | ⟨x, h⟩ := exec_cases i s <;>
    rw [h] at hexec <;> cases hexec
  · exact raise_pending s e
  · rfl
  · exact State.writeV_pending s r x
  · rfl

/-- The same of a command, whose words may be no instruction (30_encoding.md R68). -/
theorem pending_of_runCommand {cmd : CmdWord} {p : Payload} {s t : State}
    (hrun : runCommand cmd p s = .next t) : t.pending = s.pending := by
  obtain ⟨i, -, h⟩ | ⟨d, -, h⟩ := runCommand_cases cmd p s <;> rw [h] at hrun
  · exact pending_of_exec hrun
  · cases hrun
    exact raise_pending s .illegalCommand

/-! ## A step takes one input -/

/-- Settles O13: with no input there is none to take; a command runs on the state without its own
input and leaves the later ones, as a reset does. -/
theorem stepTakesExactlyTheNextInput : Obligations.StepTakesExactlyTheNextInput := by
  intro s t hstep
  obtain ⟨hnone, rfl⟩ | ⟨cmd, p, rest, hnext, hrun⟩ | ⟨input, rest, hpending, -, rfl⟩ :=
    step_inputs hstep
  · simp [hnone]
  · exact (pending_of_runCommand hrun).trans (congrArg List.tail hnext).symm
  · exact (congrArg List.tail hpending).symm

end Sys2Proof
end
